-- ==== Sys2Proof/Word.lean ====
section
/-! DEFINITION. The widths of the BLAKE3 core (spec/00_scope.md R4, R5): bytes, words, counters, chaining values and blocks. -/

namespace Sys2Proof

/-- One byte of the stream. -/
abbrev Byte := BitVec 8

/-- The core's word is 32 bits (R4). -/
abbrev Word := BitVec 32

/-- The 64-bit counters: chunk index, compression counter, output counter (R5). -/
abbrev Counter := BitVec 64

/-- A chaining value is 8 words (R4). -/
abbrev ChainValue := Vector Word 8

/-- A message block is 16 words (R4).
The working state and the output of the compression function have the same 16 words. -/
abbrev Block := Vector Word 16

/-- A count of bytes held in 7 bits: `LEN`, `BLEN`, `OBL` (R13, R21, R44). -/
abbrev BlockLen := BitVec 7

/-- The 64 byte lanes of a data bus as one value (R8, R33). -/
abbrev Bus := BitVec 512

end Sys2Proof
end

