-- ==== Sys2Proof/Config.lean ====
section
/-! DEFINITION. What the spec leaves open: the register values it calls unspecified (R17, R21) and the OPEN latencies (R119).
Every constant here is opaque: no proof can learn a value of it (log entries 2 and 8). -/

namespace Sys2Proof

/-- The free contents of `STK[0..63]` after the `n`-th reset: R17 calls the reset value unspecified (log entry 2). -/
opaque Config.freeStack : Nat → Vector ChainValue 64

/-- The free value of `OCV` after the `n`-th reset (R21, log entry 2). -/
opaque Config.freeNodeCv : Nat → ChainValue

/-- The free value of `OBLK` after the `n`-th reset (R21, log entry 2). -/
opaque Config.freeNodeBlock : Nat → Block

/-- The free value of `OBL` after the `n`-th reset (R21, log entry 2). -/
opaque Config.freeNodeLen : Nat → BlockLen

/-- The free value of `OFLG` after the `n`-th reset (R21, log entry 2). -/
opaque Config.freeNodeFlags : Nat → Word

/-- All that a latency may depend on beside the opcode (R119): the `LEN` field and the control registers. -/
structure LatencyKey where
  len   : BlockLen
  blen  : BlockLen
  bcnt  : BitVec 4
  chunk : Counter
  sp    : BitVec 7
  deriving DecidableEq, Repr

/-- `LAT_NOP - 1` (R119; every latency is at least 1, so the constant counts the cycles beyond the first). -/
opaque Config.extraNop : LatencyKey → Nat

/-- `LAT_RESET - 1` (R119). -/
opaque Config.extraReset : LatencyKey → Nat

/-- `LAT_UPDATE - 1` (R119). -/
opaque Config.extraUpdate : LatencyKey → Nat

/-- `LAT_FINALIZE - 1` (R119). -/
opaque Config.extraFinalize : LatencyKey → Nat

/-- `LAT_SQUEEZE - 1`: a constant (R119). -/
opaque Config.extraSqueeze : Nat

/-- `LAT_SEEK - 1` (R119). -/
opaque Config.extraSeek : LatencyKey → Nat

/-- `LAT_LOADCV - 1` (R119). -/
opaque Config.extraLoadcv : LatencyKey → Nat

/-- `LAT_COMPRESS - 1`: a constant (R119). -/
opaque Config.extraCompress : Nat

/-- `LAT_CLRERR - 1` (R119). -/
opaque Config.extraClrerr : LatencyKey → Nat

/-- `LAT_REFUSED - 1`; it may depend on the opcode too (R119). -/
opaque Config.extraRefused : BitVec 4 → LatencyKey → Nat

end Sys2Proof
end

