-- ==== Sys2Proof/Syntax.lean ====
section
/-! DEFINITION. The commands of spec/opcode_table.json as an inductive type, and the outcomes of decoding a command word (R42 to R49). -/

namespace Sys2Proof

/-- One constructor per row of spec/opcode_table.json (R43).
The command word's own fields are the arguments; the `din` and `aux` operands come from the ports. -/
inductive Instr where
  | nop
  | reset
  | update (len : BlockLen)
  | finalize
  | squeeze
  | seek
  | loadcv
  | compress (len : BlockLen) (flg : Byte)
  | clrerr
  deriving DecidableEq, Repr

/-- The nine legal values of the `OP` field by name (R43). -/
inductive Opcode where
  | nop | reset | update | finalize | squeeze | seek | loadcv | compress | clrerr
  deriving DecidableEq, Repr

/-- The causes for which a command is refused (R99), in the order of priority of R101. -/
inductive ErrCode where
  | illegalOp
  | rsvdBits
  | badLen
  | noOutput
  | ctrOvf
  deriving DecidableEq, Repr

/-- The outcome of decoding one command word (R49): a command, or a refusal with its code. -/
inductive Decoded where
  | cmd (i : Instr)
  | refuse (c : ErrCode)
  deriving DecidableEq, Repr

end Sys2Proof
end

