-- ==== Sys2Proof/WellFormed.lean ====
section
/-! DEFINITION. Which commands are well formed: the legal values of their fields (R44, R45). -/

namespace Sys2Proof

/-- The legal values of `LEN` are 0..64 (R44). -/
def lenLegal (len : BlockLen) : Bool := decide (len.toNat ≤ 64)

/-- `LEN` of UPDATE and COMPRESS is at most 64 (R44); every `FLG` is legal (R45); the other commands have no field. -/
def Instr.wf : Instr → Bool
  | .nop => true
  | .reset => true
  | .update len => lenLegal len
  | .finalize => true
  | .squeeze => true
  | .seek => true
  | .loadcv => true
  | .compress len _ => lenLegal len
  | .clrerr => true

end Sys2Proof
end

