-- ==== Sys2Proof/Decode.lean ====
section
/-! DEFINITION. The decoder of the 32-bit command word (R42 to R49), total on every word, and after it the encoder. -/

namespace Sys2Proof

/-- `OP = cmd[3:0]` (R42). -/
def opField (w : Word) : BitVec 4 := w.extractLsb' 0 4

/-- `LEN = cmd[10:4]` (R42, R44). -/
def lenField (w : Word) : BlockLen := w.extractLsb' 4 7

/-- `cmd[15:11]`, reserved (R42). -/
def rsvdLow (w : Word) : BitVec 5 := w.extractLsb' 11 5

/-- `FLG = cmd[23:16]` (R42, R45). -/
def flgField (w : Word) : Byte := w.extractLsb' 16 8

/-- `cmd[31:24]`, reserved (R42). -/
def rsvdHigh (w : Word) : BitVec 8 := w.extractLsb' 24 8

/-- The opcode map of R43; the values 0x9 to 0xF are reserved (R47). -/
def opcodeOf (op : BitVec 4) : Option Opcode :=
  match op.toNat with
  | 0 => some .nop
  | 1 => some .reset
  | 2 => some .update
  | 3 => some .finalize
  | 4 => some .squeeze
  | 5 => some .seek
  | 6 => some .loadcv
  | 7 => some .compress
  | 8 => some .clrerr
  | _ => none

/-- Which opcodes use `LEN` (the table of R43). -/
def Opcode.usesLen : Opcode → Bool
  | .update => true
  | .compress => true
  | .nop | .reset | .finalize | .squeeze | .seek | .loadcv | .clrerr => false

/-- Which opcodes use `FLG` (the table of R43). -/
def Opcode.usesFlg : Opcode → Bool
  | .compress => true
  | .nop | .reset | .update | .finalize | .squeeze | .seek | .loadcv | .clrerr => false

/-- The command of an opcode and its fields. -/
def instrOf (op : Opcode) (len : BlockLen) (flg : Byte) : Instr :=
  match op with
  | .nop => .nop
  | .reset => .reset
  | .update => .update len
  | .finalize => .finalize
  | .squeeze => .squeeze
  | .seek => .seek
  | .loadcv => .loadcv
  | .compress => .compress len flg
  | .clrerr => .clrerr

/-- The checks of R49 after the opcode is known, in their order. -/
def decodeFields (op : Opcode) (w : Word) : Decoded :=
  if rsvdLow w ≠ 0 ∨ rsvdHigh w ≠ 0 then .refuse .rsvdBits
  else if lenField w ≠ 0 ∧ op.usesLen = false then .refuse .rsvdBits
  else if flgField w ≠ 0 ∧ op.usesFlg = false then .refuse .rsvdBits
  else if op.usesLen = true ∧ lenLegal (lenField w) = false then .refuse .badLen
  else .cmd (instrOf op (lenField w) (flgField w))

/-- `decode(w)` of R49: every 32-bit word has exactly one outcome. -/
def decode (w : Word) : Decoded :=
  match opcodeOf (opField w) with
  | none => .refuse .illegalOp
  | some op => decodeFields op w

/-- The opcode of a command. -/
def Instr.opcode : Instr → Opcode
  | .nop => .nop
  | .reset => .reset
  | .update _ => .update
  | .finalize => .finalize
  | .squeeze => .squeeze
  | .seek => .seek
  | .loadcv => .loadcv
  | .compress _ _ => .compress
  | .clrerr => .clrerr

/-- The `OP` value of an opcode (R43). -/
def Opcode.bits : Opcode → BitVec 4
  | .nop => 0x0
  | .reset => 0x1
  | .update => 0x2
  | .finalize => 0x3
  | .squeeze => 0x4
  | .seek => 0x5
  | .loadcv => 0x6
  | .compress => 0x7
  | .clrerr => 0x8

/-- The `LEN` field of a command's word: zero where the opcode does not use it (R46). -/
def Instr.lenBits : Instr → BlockLen
  | .update len => len
  | .compress len _ => len
  | .nop | .reset | .finalize | .squeeze | .seek | .loadcv | .clrerr => 0

/-- The `FLG` field of a command's word: zero where the opcode does not use it (R46). -/
def Instr.flgBits : Instr → Byte
  | .compress _ flg => flg
  | .nop | .reset | .update _ | .finalize | .squeeze | .seek | .loadcv | .clrerr => 0

/-- The word laid out as format CMD32 (R42): `OP` in bits 3:0, `LEN` in 10:4, `FLG` in 23:16, every other bit zero. -/
def packWord (op : BitVec 4) (len : BlockLen) (flg : Byte) : Word :=
  op.zeroExtend 32 ||| (len.zeroExtend 32 <<< 4) ||| (flg.zeroExtend 32 <<< 16)

/-- The command word of a command (R42, R43, R46). -/
def encode (i : Instr) : Word := packWord i.opcode.bits i.lenBits i.flgBits

/-- A table word of `nbits` bits as the 32-bit command word, the bits above `nbits` zero. -/
def tableWord (nbits w : Nat) : Word := BitVec.ofNat 32 (w % 2 ^ nbits)

/-- The instruction the decoder reads from a table word; none where it refuses. -/
def decodeTableWord (nbits w : Nat) : Option Instr :=
  match decode (tableWord nbits w) with
  | .cmd i => some i
  | .refuse _ => none

end Sys2Proof
end

