-- ==== Sys2Proof/Machine/Constants.lean ====
section
/-! DEFINITION. The constants of the hardware: the IV (R28, R52), the flag bits (R53), the message permutation (R54) and the sizes (R5 to R7). -/

namespace Sys2Proof.Machine

/-- The initialization vector (R52): a constant of the hardware, also the key words of the hash mode (R2, R28). -/
def IV : ChainValue :=
  #v[0x6A09E667, 0xBB67AE85, 0x3C6EF372, 0xA54FF53A, 0x510E527F, 0x9B05688C, 0x1F83D9AB, 0x5BE0CD19]

/-- CHUNK_START, bit 0 of the flags word (R53). -/
def flagChunkStart : Word := 0x01

/-- CHUNK_END, bit 1 (R53). -/
def flagChunkEnd : Word := 0x02

/-- PARENT, bit 2 (R53). -/
def flagParent : Word := 0x04

/-- ROOT, bit 3 (R53). -/
def flagRoot : Word := 0x08

/-- KEYED_HASH, bit 4: never set by the core itself (R2, R53). -/
def flagKeyedHash : Word := 0x10

/-- DERIVE_KEY_CONTEXT, bit 5: never set by the core itself (R2, R53). -/
def flagDeriveKeyContext : Word := 0x20

/-- DERIVE_KEY_MATERIAL, bit 6: never set by the core itself (R2, R53). -/
def flagDeriveKeyMaterial : Word := 0x40

/-- PERM, the message permutation (R54). -/
def PERM : Vector (Fin 16) 16 := #v[2, 6, 3, 10, 7, 0, 4, 13, 1, 11, 12, 5, 9, 14, 15, 8]

/-- The compression function runs 7 rounds (R6). -/
def ROUNDS : Nat := 7

/-- BLOCK_LEN = 64 bytes (R5). -/
def BLOCK_LEN : Nat := 64

/-- CHUNK_LEN = 1024 bytes = 16 blocks (R5). -/
def CHUNK_LEN : Nat := 1024

/-- The largest chunk index, `2^64 - 1` (R85). -/
def maxChunk : Counter := BitVec.allOnes 64

/-- 64 zero bytes: the cleared block buffer (R12, R66). -/
def zeroBlk : Vector Byte 64 := Vector.replicate 64 0

/-- 16 zero words (R24). -/
def zeroBlock : Block := Vector.replicate 16 0

end Sys2Proof.Machine
end

