-- ==== Sys2Proof/Machine/State.lean ====
section
/-! DEFINITION. The state of the BLAKE3 core (spec/10_state.md), the operands the host offers, the reasons a step can stop, and the state after reset (R111). -/

namespace Sys2Proof.Machine

/-- One command on the command port (R33): the command word with the `din` and `aux` operands sampled at the same edge. -/
structure Command where
  cmd : Word
  din : Bus
  aux : Counter
  deriving DecidableEq, Repr

/-- The core has no trap and no halted state (R98, R102), so the spec names no fault.
The two reasons here stop the model in states that R12, R13, R18 and R19 say never occur, where the spec gives no behaviour.
Both are safe: the model stops, and no state that meets the machine's invariant raises one (log entry 5). -/
inductive Fault where
  /-- Raised by UPDATE (merge or push) and FINALIZE on an access to an entry of `STK` outside 0..63 (R17): safe. -/
  | stackIndex
  /-- Raised by UPDATE on a write to a byte of `BLK` outside 0..63, that is with `BLEN` in 65..127, which R13 says never occurs: safe. -/
  | blockIndex
  deriving DecidableEq, Repr

/-- Why a step has no next state although nothing went wrong in the core. -/
inductive Refusal where
  /-- Raised by an arm of exec whose instruction has no meaning yet; no arm is left so: safe. -/
  | notModelled (mnemonic : String)
  /-- Raised by step when the host's sequence holds no further command: the core takes no step without a command (R10, R116): safe. -/
  | noCommand
  deriving DecidableEq, Repr

/-- Every register of spec/10_state.md under its own name, then the operands as sampled from the ports (R33), the host's
sequence and the position in it (R29), and the model's own counter of free values. -/
structure State where
  /-- `CV[0..7]`, the running chaining value of the current chunk (R11). -/
  cv      : ChainValue
  /-- `BLK[0..63]`, the block buffer (R12). -/
  blk     : Vector Byte 64
  /-- `BLEN`, the number of bytes in `BLK` (R13). -/
  blen    : BlockLen
  /-- `BCNT`, the number of blocks of the current chunk compressed into `CV` (R14). -/
  bcnt    : BitVec 4
  /-- `CHUNK`, the chunk index of the current chunk (R16). -/
  chunk   : Counter
  /-- `STK[0..63]`, the CV stack (R17). -/
  stk     : Vector ChainValue 64
  /-- `SP`, the number of valid stack entries (R18). -/
  sp      : BitVec 7
  /-- `OUTV`: the output node registers hold the root node of the input absorbed so far (R20). -/
  outv    : Bool
  /-- `OCV[0..7]`, the root node's input chaining value (R21). -/
  ocv     : ChainValue
  /-- `OBLK[0..15]`, the root node's block (R21). -/
  oblk    : Block
  /-- `OBL`, the root node's block length (R21). -/
  obl     : BlockLen
  /-- `OFLG`, the root node's flags, ROOT among them (R21). -/
  oflg    : Word
  /-- `OCTR`, the output counter (R22). -/
  octr    : Counter
  /-- `RAWCV[0..7]`, the chaining value input of COMPRESS (R23). -/
  rawcv   : ChainValue
  /-- `DOUT[0..15]`, the result register (R24). -/
  dout    : Block
  /-- `DVALID` (R24). -/
  dvalid  : Bool
  /-- `ERR` (R25). -/
  err     : Bool
  /-- `ERRCODE` (R25). -/
  errcode : BitVec 3
  /-- The command word sampled at the last acceptance (R33). -/
  cmd     : Word
  /-- The data-in bus sampled at the last acceptance (R33). -/
  din     : Bus
  /-- The auxiliary operand sampled at the last acceptance (R33, R37). -/
  aux     : Counter
  /-- The host's commands that are not yet accepted, the next one first (R29, R41). -/
  queue   : List Command
  /-- The index of the next command in the host's sequence (R29). -/
  pos     : Nat
  /-- The model's own: how many resets have drawn free values for the registers R17 and R21 leave unspecified (log entry 2). -/
  freeCtr : Nat
  deriving DecidableEq, Repr

/-- The machine right after hardware reset (R111).
STK, OCV, OBLK, OBL and OFLG have no reset value in the spec and are zero here (log entry 1).
The sampled operands are zero, no command is waiting and the position is 0 (log entry 3). -/
def State.reset : State where
  cv := IV
  blk := zeroBlk
  blen := 0
  bcnt := 0
  chunk := 0
  stk := Vector.replicate 64 (Vector.replicate 8 0)
  sp := 0
  outv := false
  ocv := Vector.replicate 8 0
  oblk := zeroBlock
  obl := 0
  oflg := 0
  octr := 0
  rawcv := IV
  dout := zeroBlock
  dvalid := false
  err := false
  errcode := 0
  cmd := 0
  din := 0
  aux := 0
  queue := []
  pos := 0
  freeCtr := 0

end Sys2Proof.Machine
end

