-- ==== Sys2Proof/Machine/Operands.lean ====
section
/-! DEFINITION. The operand forms of the commands: byte lanes, little-endian words, LEN, FLG and AUX (R34 to R37, R44, R45). -/

namespace Sys2Proof.Machine

/-- `din_byte(i) = din[8*i+7 : 8*i]` (R34); the same lanes on the data-out bus. -/
def busByte (d : Bus) (i : Nat) : Byte := d.extractLsb' (8 * i) 8

/-- Lanes `0..n-1` of a data bus, in stream order (R34). -/
def busBytes (d : Bus) (n : Nat) : List Byte := (List.range n).map (busByte d)

/-- The bus that carries the bytes `bs` in lanes 0, 1, 2, ... (R34); the lanes above them are zero. -/
def busOf : List Byte → Bus
  | [] => 0
  | b :: bs => b.zeroExtend 512 ||| (busOf bs <<< 8)

/-- One word from four bytes, the first in the low bits (R35). -/
def wordOfBytes (b0 b1 b2 b3 : Byte) : Word :=
  b0.zeroExtend 32 ||| (b1.zeroExtend 32 <<< 8) ||| (b2.zeroExtend 32 <<< 16) ||| (b3.zeroExtend 32 <<< 24)

/-- `words(b)` (R35), `n` words; a byte sequence that is too short is padded with zero bytes. -/
def wordsOf (n : Nat) (bs : List Byte) : Vector Word n :=
  Vector.ofFn fun i => wordOfBytes (bs.getD (4 * i) 0) (bs.getD (4 * i + 1) 0) (bs.getD (4 * i + 2) 0) (bs.getD (4 * i + 3) 0)

/-- The four bytes of a word, the low one first (R36). -/
def wordBytes (w : Word) : List Byte :=
  [w.extractLsb' 0 8, w.extractLsb' 8 8, w.extractLsb' 16 8, w.extractLsb' 24 8]

/-- `bytes(w)` (R36). -/
def bytesOf {n : Nat} (ws : Vector Word n) : List Byte := ws.toList.flatMap wordBytes

/-- A block-length operand as the compression function's input: `zext_32(LEN)` (R44, R58). -/
def lenWord (len : BlockLen) : Word := len.zeroExtend 32

/-- The flags operand: `zext_32(FLG)` (R45). -/
def flgWord (flg : Byte) : Word := flg.zeroExtend 32

/-- The low word of a counter, `t[31:0]` (R37, R58). -/
def counterLow (t : Counter) : Word := t.extractLsb' 0 32

/-- The high word of a counter, `t[63:32]` (R37, R58). -/
def counterHigh (t : Counter) : Word := t.extractLsb' 32 32

/-- UPDATE's data: `din_byte(0), ..., din_byte(LEN-1)` (R34, R39). -/
def updateData (d : Bus) (len : BlockLen) : List Byte := busBytes d len.toNat

/-- LOADCV's operand: `words(din_byte(0..31))` (R35, R64). -/
def loadcvOperand (d : Bus) : ChainValue := wordsOf 8 (busBytes d 32)

/-- COMPRESS's block: `words(din_byte(0..63))`, all 64 bytes as given (R65). -/
def compressOperand (d : Bus) : Block := wordsOf 16 (busBytes d 64)

end Sys2Proof.Machine
end

