-- ==== Sys2Proof/Machine/Compression.lean ====
section
/-! DEFINITION. The compression function (R55 to R62): the mixing network, the initial state, the rounds, the output, and output nodes. -/

namespace Sys2Proof.Machine

/-- `rotr(x, n)` for 0 < n < 32 (R55). -/
def rotr (x : Word) (n : Nat) : Word := (x >>> n) ||| (x <<< (32 - n))

/-- The quarter-round G on the words `a, b, c, d` of the working state (R56); each line reads what the lines before it wrote. -/
def mixG (s : Block) (a b c d : Fin 16) (mx my : Word) : Block :=
  let s := s.set a (s[a] + s[b] + mx)
  let s := s.set d (rotr (s[d] ^^^ s[a]) 16)
  let s := s.set c (s[c] + s[d])
  let s := s.set b (rotr (s[b] ^^^ s[c]) 12)
  let s := s.set a (s[a] + s[b] + my)
  let s := s.set d (rotr (s[d] ^^^ s[a]) 8)
  let s := s.set c (s[c] + s[d])
  s.set b (rotr (s[b] ^^^ s[c]) 7)

/-- The four column applications of G, with the message words 0 to 7 (R57). -/
def mixColumns (s m : Block) : Block :=
  let s := mixG s 0 4 8 12 m[0] m[1]
  let s := mixG s 1 5 9 13 m[2] m[3]
  let s := mixG s 2 6 10 14 m[4] m[5]
  mixG s 3 7 11 15 m[6] m[7]

/-- The four diagonal applications of G, with the message words 8 to 15 (R57). -/
def mixDiagonals (s m : Block) : Block :=
  let s := mixG s 0 5 10 15 m[8] m[9]
  let s := mixG s 1 6 11 12 m[10] m[11]
  let s := mixG s 2 7 8 13 m[12] m[13]
  mixG s 3 4 9 14 m[14] m[15]

/-- One round: the columns, then the diagonals (R57). -/
def mixRound (s m : Block) : Block := mixDiagonals (mixColumns s m) m

/-- `permute(m)[i] = m[PERM[i]]` (R54). -/
def permute (m : Block) : Block := Vector.ofFn fun i => m[PERM[i]]

/-- `n` rounds, the message permuted after each (R59). -/
def mixRounds : Nat → Block → Block → Block
  | 0, s, _ => s
  | n + 1, s, m => mixRounds n (mixRound s m) (permute m)

/-- The initial working state (R58). -/
def initState (cv : ChainValue) (t : Counter) (bl : BlockLen) (fl : Word) : Block :=
  #v[cv[0], cv[1], cv[2], cv[3], cv[4], cv[5], cv[6], cv[7],
     IV[0], IV[1], IV[2], IV[3], counterLow t, counterHigh t, lenWord bl, fl]

/-- The 16-word output with the feed-forward of the input chaining value (R60). -/
def feedForward (s : Block) (cv : ChainValue) : Block :=
  #v[s[0] ^^^ s[8], s[1] ^^^ s[9], s[2] ^^^ s[10], s[3] ^^^ s[11],
     s[4] ^^^ s[12], s[5] ^^^ s[13], s[6] ^^^ s[14], s[7] ^^^ s[15],
     s[8] ^^^ cv[0], s[9] ^^^ cv[1], s[10] ^^^ cv[2], s[11] ^^^ cv[3],
     s[12] ^^^ cv[4], s[13] ^^^ cv[5], s[14] ^^^ cv[6], s[15] ^^^ cv[7]]

/-- `compress(cv, m, t, bl, fl)`: a pure, total function of its five inputs (R60, R62). -/
def compress (cv : ChainValue) (m : Block) (t : Counter) (bl : BlockLen) (fl : Word) : Block :=
  feedForward (mixRounds ROUNDS (initState cv t bl fl) m) cv

/-- The first 8 words of a 16-word output (R61). -/
def firstHalf (b : Block) : ChainValue := #v[b[0], b[1], b[2], b[3], b[4], b[5], b[6], b[7]]

/-- An output node `(cv, m, t, bl, fl)`: the inputs of a compression that has not been run (spec/00_scope.md, Tuples). -/
structure Node where
  cv : ChainValue
  m  : Block
  t  : Counter
  bl : BlockLen
  fl : Word
  deriving DecidableEq, Repr

/-- The chaining value of an output node (R61). -/
def cvOf (n : Node) : ChainValue := firstHalf (compress n.cv n.m n.t n.bl n.fl)

/-- `l || r`: two chaining values as one block, `l` in words 0..7 (R75). -/
def joinCvs (l r : ChainValue) : Block := l ++ r

end Sys2Proof.Machine
end

