-- ==== Sys2Proof/Machine/Flags.lean ====
section
/-! DEFINITION. The STATUS word and what it is computed from (R15, R26), the error codes (R99), and the start flag of a block (R67). -/

namespace Sys2Proof.Machine

/-- `chunk_len = 64 * BCNT + BLEN`, derived and not a register (R15). -/
def chunkLen (s : State) : Nat := BLOCK_LEN * s.bcnt.toNat + s.blen.toNat

/-- The EMPTY field: 1 when `CHUNK = 0`, `BCNT = 0` and `BLEN = 0` (R26, R31). -/
def emptyFlag (s : State) : Bool := s.chunk == 0 && s.bcnt == 0 && s.blen == 0

/-- The STATUS word, computed from the registers at every moment (R26); bits 31:25 read as 0. -/
def statusWord (s : State) : Word :=
  (BitVec.ofBool s.err).zeroExtend 32 ||| (s.errcode.zeroExtend 32 <<< 1) ||| ((BitVec.ofBool s.outv).zeroExtend 32 <<< 4) |||
    ((BitVec.ofBool s.dvalid).zeroExtend 32 <<< 5) ||| ((BitVec.ofBool (emptyFlag s)).zeroExtend 32 <<< 6) |||
    (s.blen.zeroExtend 32 <<< 7) ||| (s.bcnt.zeroExtend 32 <<< 14) ||| (s.sp.zeroExtend 32 <<< 18)

/-- The value of ERRCODE for each cause (R99); 0 is NONE, 6 and 7 are never recorded. -/
def errBits : ErrCode → BitVec 3
  | .illegalOp => 1
  | .rsvdBits => 2
  | .badLen => 3
  | .noOutput => 4
  | .ctrOvf => 5

/-- `start_flag()`: CHUNK_START exactly for block 0 of a chunk (R67). -/
def startFlag (s : State) : Word := if s.bcnt = 0 then flagChunkStart else 0

end Sys2Proof.Machine
end

