-- ==== Sys2Proof/Machine/Ops.lean ====
section
/-! DEFINITION. The shared operations on the registers: recording a refusal and clearing the record (R98, R100, R103),
loading the reset values (R83, R111), and the accesses to the CV stack and the block buffer (R12, R17). -/

namespace Sys2Proof.Machine

/-- Refusing a command with code `c` (R98, R100): the core's only exception, and the only thing it does.
The first refusal since reset or CLRERR is kept; no register but ERR and ERRCODE changes; nothing is saved and no handler runs. -/
def State.refuse (s : State) (c : ErrCode) : State :=
  if s.err then s else { s with err := true, errcode := errBits c }

/-- Clearing the error record, the nearest the core has to a return from an exception (R90, R103). -/
def State.clearError (s : State) : State := { s with err := false, errcode := 0 }

/-- ChunkInit of R66 on the chunk processor registers: CHUNK, STK and SP are left alone. -/
def chunkInit (s : State) : State := { s with cv := IV, blk := zeroBlk, blen := 0, bcnt := 0 }

/-- The registers R17 and R21 call unspecified at reset take free values (log entry 2). -/
def State.freeRegs (s : State) : State :=
  { s with
    stk := Config.freeStack s.freeCtr
    ocv := Config.freeNodeCv s.freeCtr
    oblk := Config.freeNodeBlock s.freeCtr
    obl := Config.freeNodeLen s.freeCtr
    oflg := Config.freeNodeFlags s.freeCtr
    freeCtr := s.freeCtr + 1 }

/-- Every register takes its reset value (R83, R111, R112).
The sampled operands, the host's sequence and the position are not registers of the core and stay. -/
def State.loadReset (s : State) : State :=
  { chunkInit s.freeRegs with
    chunk := 0, sp := 0
    outv := false, octr := 0
    rawcv := IV, dout := zeroBlock, dvalid := false
    err := false, errcode := 0 }

/-- Reading entry `j` of the CV stack; only entries 0..63 exist (R17). -/
def readStk (s : State) (j : Nat) : Except Fault ChainValue :=
  if h : j < 64 then .ok s.stk[j] else .error .stackIndex

/-- `STK[SP] <- cv; SP <- SP + 1` (R78); only entries 0..63 exist (R17). -/
def pushStk (s : State) (cv : ChainValue) : Except Fault State :=
  if h : s.sp.toNat < 64 then .ok { s with stk := s.stk.set s.sp.toNat cv, sp := s.sp + 1 } else .error .stackIndex

/-- `BLK[BLEN] <- b; BLEN <- BLEN + 1` (R68); only bytes 0..63 exist (R12). -/
def appendByte (s : State) (b : Byte) : Except Fault State :=
  if h : s.blen.toNat < 64 then .ok { s with blk := s.blk.set s.blen.toNat b, blen := s.blen + 1 } else .error .blockIndex

end Sys2Proof.Machine
end

