-- ==== Sys2Proof/Machine/Chunk.lean ====
section
/-! DEFINITION. The chunk processor: AbsorbByte and ChunkOutput (R66 to R74). They are internal to UPDATE and FINALIZE. -/

namespace Sys2Proof.Machine

/-- The block buffer as the compression function takes it: `words(BLK)` (R35). -/
def blkWords (s : State) : Block := wordsOf 16 s.blk.toList

/-- The first half of AbsorbByte (R68): a full buffered block is compressed once more input follows.
The start flag is read before BCNT is incremented. -/
def compressBuffered (s : State) : State :=
  { s with
    cv := cvOf ⟨s.cv, blkWords s, s.chunk, 64, startFlag s⟩
    bcnt := s.bcnt + 1
    blk := zeroBlk
    blen := 0 }

/-- AbsorbByte(b) (R68). -/
def absorbByte (b : Byte) (s : State) : Except Fault State :=
  appendByte (if s.blen = 64 then compressBuffered s else s) b

/-- ChunkOutput(): the output node of the current chunk's last block (R70). -/
def chunkOutput (s : State) : Node := ⟨s.cv, blkWords s, s.chunk, s.blen, startFlag s ||| flagChunkEnd⟩

end Sys2Proof.Machine
end

