-- ==== Sys2Proof/Machine/Tree.lean ====
section
/-! DEFINITION. The tree accumulator: parent nodes, PushChunkCV and CloseChunk (R75 to R81). They are internal to UPDATE and FINALIZE. -/

namespace Sys2Proof.Machine

/-- ParentOutput(l, r) (R76). -/
def parentOutput (l r : ChainValue) : Node := ⟨IV, joinCvs l r, 0, 64, flagParent⟩

/-- ParentCV(l, r) (R77). -/
def parentCv (l r : ChainValue) : ChainValue := cvOf (parentOutput l r)

/-- The loop of PushChunkCV (R78): while the lowest bit of `total` is 0, the top of the stack is merged as the left child.
The first argument bounds the passes; a law shows that the bound PushChunkCV gives is never reached (log entry 9). -/
def mergeLoop : Nat → Nat → ChainValue → State → Except Fault (ChainValue × State)
  | 0, _, cv, s => .ok (cv, s)
  | fuel + 1, total, cv, s =>
    if total % 2 = 0 then
      match readStk s (s.sp - 1).toNat with
      | .error f => .error f
      | .ok l => mergeLoop fuel (total / 2) (parentCv l cv) { s with sp := s.sp - 1 }
    else .ok (cv, s)

/-- PushChunkCV(cv) (R78). -/
def pushChunkCv (cv : ChainValue) (s : State) : Except Fault State :=
  match mergeLoop 65 (s.chunk.toNat + 1) cv s with
  | .error f => .error f
  | .ok (cv', s') => pushStk s' cv'

/-- CloseChunk() (R79): push the chunk's chaining value, advance the chunk index, start the next chunk. -/
def closeChunk (s : State) : Except Fault State :=
  match pushChunkCv (cvOf (chunkOutput s)) s with
  | .error f => .error f
  | .ok s' => .ok (chunkInit { s' with chunk := s'.chunk + 1 })

end Sys2Proof.Machine
end

