-- ==== Sys2Proof/Machine/Driver.lean ====
section
/-! DEFINITION. The driver commands: NOP, RESET, UPDATE, FINALIZE and CLRERR (R82 to R90). -/

namespace Sys2Proof.Machine

/-- NOP: no register is written (R82). -/
def execNop (s : State) : Host.Outcome State Fault Refusal := .next s

/-- RESET: every register takes its reset value (R83). -/
def execReset (s : State) : Host.Outcome State Fault Refusal := .next s.loadReset

/-- One pass of UPDATE's loop (R84): a full chunk is closed once another byte is about to be absorbed. -/
def absorb (b : Byte) (s : State) : Except Fault State :=
  if chunkLen s = CHUNK_LEN then
    match closeChunk s with
    | .error f => .error f
    | .ok s' => absorbByte b s'
  else absorbByte b s

/-- UPDATE's loop over its bytes, in stream order (R84). -/
def absorbAll : List Byte → State → Except Fault State
  | [], s => .ok s
  | b :: bs, s =>
    match absorb b s with
    | .error f => .error f
    | .ok s' => absorbAll bs s'

/-- The counter-overflow condition of UPDATE (R85). -/
def ctrOverflow (len : BlockLen) (s : State) : Bool :=
  decide (s.chunk = maxChunk) && decide (chunkLen s + len.toNat > CHUNK_LEN)

/-- Why an UPDATE is refused, if it is: LEN above 64 (R44), then the counter overflow (R85), as R101 orders them (log entry 11). -/
def updateRefusal (len : BlockLen) (s : State) : Option ErrCode :=
  if lenLegal len = false then some .badLen
  else if ctrOverflow len s then some .ctrOvf
  else none

/-- UPDATE (R84): absorb LEN bytes of the data-in bus, then clear OUTV. -/
def execUpdate (len : BlockLen) (s : State) : Host.Outcome State Fault Refusal :=
  match updateRefusal len s with
  | some c => .next (s.refuse c)
  | none =>
    match absorbAll (updateData s.din len) s with
    | .error f => .fault f
    | .ok t => .next { t with outv := false }

/-- The loop of RootNode() (R87): fold the stack entries `j-1` down to 0, each as the left child. -/
def foldStack (s : State) : Nat → Node → Except Fault Node
  | 0, n => .ok n
  | j + 1, n =>
    match readStk s j with
    | .error f => .error f
    | .ok l => foldStack s j (parentOutput l (cvOf n))

/-- RootNode() (R87); it writes no register. -/
def rootNode (s : State) : Except Fault Node := foldStack s s.sp.toNat (chunkOutput s)

/-- Latching a node for output (R88): ROOT is set in its flags and its counter is not kept. -/
def latchRoot (s : State) (n : Node) : State :=
  { s with
    ocv := n.cv
    oblk := n.m
    obl := n.bl
    oflg := n.fl ||| flagRoot
    octr := 0
    outv := true }

/-- FINALIZE (R88). -/
def execFinalize (s : State) : Host.Outcome State Fault Refusal :=
  match rootNode s with
  | .error f => .fault f
  | .ok n => .next (latchRoot s n)

/-- CLRERR: clear the error record (R90). -/
def execClrerr (s : State) : Host.Outcome State Fault Refusal := .next s.clearError

end Sys2Proof.Machine
end

