-- ==== Sys2Proof/Machine/Output.lean ====
section
/-! DEFINITION. The output generator: SQUEEZE and SEEK (R91 to R93), and the output stream and digest a host reads (R94, R95). -/

namespace Sys2Proof.Machine

/-- Segment `k` of the output stream as 16 words: the root compression at counter `k` (R91, R94). -/
def segmentWords (s : State) (k : Counter) : Block := compress s.ocv s.oblk k s.obl s.oflg

/-- SQUEEZE (R91): the next 64-byte segment, or NO_OUTPUT where no root node is latched.
OCTR wraps modulo 2^64 (R93). -/
def execSqueeze (s : State) : Host.Outcome State Fault Refusal :=
  if s.outv then .next { s with dout := segmentWords s s.octr, octr := s.octr + 1, dvalid := true }
  else .next (s.refuse .noOutput)

/-- SEEK: OCTR takes the AUX value, in any state (R92). -/
def execSeek (s : State) : Host.Outcome State Fault Refusal := .next { s with octr := s.aux }

/-- `seg(k)`: the 64 bytes of segment `k` (R94). -/
def segmentBytes (s : State) (k : Counter) : List Byte := bytesOf (segmentWords s k)

/-- Byte `p` of the output stream: byte `p mod 64` of `seg(p div 64)` (R94); the segments repeat with period 2^64 (R93). -/
def streamByte (s : State) (p : Nat) : Byte := (segmentBytes s (BitVec.ofNat 64 (p / 64))).getD (p % 64) 0

/-- The digest as the host takes it: `bytes(DOUT)[0..31]` after the first SQUEEZE following FINALIZE (R94). -/
def digestOf (dout : Block) : List Byte := (bytesOf dout).take 32

end Sys2Proof.Machine
end

