-- ==== Sys2Proof/Machine/Raw.lean ====
section
/-! DEFINITION. The raw compression commands LOADCV and COMPRESS (R64, R65). -/

namespace Sys2Proof.Machine

/-- LOADCV: RAWCV takes bytes 0..31 of the data-in bus as 8 words (R64). -/
def execLoadcv (s : State) : Host.Outcome State Fault Refusal := .next { s with rawcv := loadcvOperand s.din }

/-- COMPRESS (R65): run the compression function on RAWCV, the 64 bytes of the bus as given, AUX, LEN and FLG.
A LEN above 64 is refused with BAD_LEN (R44, log entry 11). -/
def execCompress (len : BlockLen) (flg : Byte) (s : State) : Host.Outcome State Fault Refusal :=
  if lenLegal len = false then .next (s.refuse .badLen)
  else .next { s with dout := compress s.rawcv (compressOperand s.din) s.aux len (flgWord flg), dvalid := true }

end Sys2Proof.Machine
end

