-- ==== Sys2Proof/Machine/Dispatch.lean ====
section
/-! DEFINITION. One arm per command: each is one call of the command's meaning. -/

namespace Sys2Proof.Machine

def exec (i : Instr) (s : State) : Host.Outcome State Fault Refusal :=
  match i with
  | .nop => Sys2Proof.Machine.execNop s
  | .reset => Sys2Proof.Machine.execReset s
  | .update len => Sys2Proof.Machine.execUpdate len s
  | .finalize => Sys2Proof.Machine.execFinalize s
  | .squeeze => Sys2Proof.Machine.execSqueeze s
  | .seek => Sys2Proof.Machine.execSeek s
  | .loadcv => Sys2Proof.Machine.execLoadcv s
  | .compress len flg => Sys2Proof.Machine.execCompress len flg s
  | .clrerr => Sys2Proof.Machine.execClrerr s

end Sys2Proof.Machine
end

