-- ==== Sys2Proof/Machine/Accept.lean ====
section
/-! DEFINITION. What accepting one command does: sample the operands, advance the position, decode, then execute or refuse (R29, R41, R49, R98, R114). -/

namespace Sys2Proof.Machine

/-- The operands are sampled from the ports and the position advances by one (R29, R33, R114). -/
def State.accept (s : State) (c : Command) : State :=
  { s with cmd := c.cmd, din := c.din, aux := c.aux, pos := s.pos + 1 }

/-- The check a command makes on its LEN and on the state before it executes (R44, R85, R91): why it is refused, if it is. -/
def stateRefusal (i : Instr) (s : State) : Option ErrCode :=
  match i with
  | .update len => updateRefusal len s
  | .compress len _ => if lenLegal len then none else some .badLen
  | .squeeze => if s.outv then none else some .noOutput
  | .nop | .reset | .finalize | .seek | .loadcv | .clrerr => none

/-- Why an accepted word is refused in a state, if it is: the decoder's causes come before the state's (R99, R101). -/
def refusalOf (w : Word) (s : State) : Option ErrCode :=
  match decode w with
  | .refuse c => some c
  | .cmd i => stateRefusal i s

/-- The effect of a decoded word: the command's own rule, or the recording of the refusal (R49, R98). -/
def runDecoded (d : Decoded) (s : State) : Host.Outcome State Fault Refusal :=
  match d with
  | .cmd i => exec i s
  | .refuse c => .next (s.refuse c)

/-- One accepted command, applied atomically (R40, R114, R116). -/
def runCommand (c : Command) (s : State) : Host.Outcome State Fault Refusal :=
  runDecoded (decode c.cmd) (s.accept c)

/-- The host offers one more command before all that are waiting. -/
def State.offerNext (s : State) (c : Command) : State := { s with queue := c :: s.queue }

/-- The commands of the host's sequence run in order (R41): each sees every effect of those before it. -/
def runCommands : List Command → State → Host.Outcome State Fault Refusal
  | [], s => .next s
  | c :: cs, s =>
    match runCommand c s with
    | .next s' => runCommands cs s'
    | .fault f => .fault f
    | .refused r => .refused r

end Sys2Proof.Machine
end

