-- ==== Sys2Proof/Machine/Step.lean ====
section
/-! DEFINITION. The machine's step (R116): exactly one step for each accepted command. -/

namespace Sys2Proof.Machine

/-- The next command of the host's sequence is accepted and applied atomically (R40, R41, R116).
With no command left there is no step: the core takes no step without a command (R10). -/
def step (s : State) : Host.Outcome State Fault Refusal :=
  match s.queue with
  | [] => .refused .noCommand
  | c :: cs => runCommand c { s with queue := cs }

/-- The command word `w` is offered as the next command, with the operands the ports last held (log entry 4). -/
def State.withFetchWord (s : State) (nbits w : Nat) : State :=
  s.offerNext ⟨tableWord nbits w, s.din, s.aux⟩

end Sys2Proof.Machine
end

