-- ==== Sys2Proof/Machine/Assembler.lean ====
section
/-! DEFINITION. The host's side of the command port: the textual syntax (R50), the pseudo-instructions (R51), the truncation of
output (R95) and the hex text form (R96). The core itself holds no text and no program (R29, R96). -/

namespace Sys2Proof.Machine

/-- One line of the textual syntax with its operands read (R50). -/
inductive AsmLine where
  | nop
  | reset
  | update (n : Nat) (data : List Byte)
  | finalize
  | squeeze
  | seek (k : Nat)
  | loadcv (data : List Byte)
  | compress (bl fl k : Nat) (data : List Byte)
  | clrerr
  | word (w : Nat)
  deriving DecidableEq, Repr

/-- A command word whose `din` and `aux` are zero. -/
def bareCommand (w : Word) : Command := ⟨w, 0, 0⟩

/-- The command of a line (R50); none where an operand does not fit its place.
Lanes above the data are zero. -/
def assemble : AsmLine → Option Command
  | .nop => some (bareCommand 0x00000000)
  | .reset => some (bareCommand 0x00000001)
  | .update n data =>
    if data.length = n ∧ n ≤ 64 then some ⟨BitVec.ofNat 32 (0x2 ||| n <<< 4), busOf data, 0⟩ else none
  | .finalize => some (bareCommand 0x00000003)
  | .squeeze => some (bareCommand 0x00000004)
  | .seek k => if k < 2 ^ 64 then some ⟨0x00000005, 0, BitVec.ofNat 64 k⟩ else none
  | .loadcv data => if data.length = 32 then some ⟨0x00000006, busOf data, 0⟩ else none
  | .compress bl fl k data =>
    if data.length = 64 ∧ bl < 2 ^ 7 ∧ fl < 2 ^ 8 ∧ k < 2 ^ 64 then
      some ⟨BitVec.ofNat 32 (0x7 ||| bl <<< 4 ||| fl <<< 16), busOf data, BitVec.ofNat 64 k⟩
    else none
  | .clrerr => some (bareCommand 0x00000008)
  | .word w => if w < 2 ^ 32 then some (bareCommand (BitVec.ofNat 32 w)) else none

/-- `HASH <bytes>` (R51): as many UPDATEs of 64 bytes as there are, then one of the rest unless it is empty. -/
def hashLines (bs : List Byte) : List AsmLine :=
  (List.range (bs.length / 64)).map (fun i => .update 64 ((bs.drop (64 * i)).take 64)) ++
    (if bs.length % 64 = 0 then [] else [.update (bs.length % 64) (bs.drop (64 * (bs.length / 64)))])

/-- `DIGEST` (R51). -/
def digestLines : List AsmLine := [.finalize, .squeeze]

/-- How many segments a request for `n` bytes takes: `ceil(n/64)` (R51, R95). -/
def segmentsFor (n : Nat) : Nat := (n + 63) / 64

/-- `XOF n` (R51). -/
def xofLines (n : Nat) : List AsmLine := .finalize :: List.replicate (segmentsFor n) .squeeze

/-- `XOFAT k, n` (R51). -/
def xofatLines (k n : Nat) : List AsmLine := .finalize :: .seek k :: List.replicate (segmentsFor n) .squeeze

/-- The 32 bytes of `LOADIV`, as R51 writes them. -/
def loadIvBytes : List Byte :=
  [0x67, 0xe6, 0x09, 0x6a, 0x85, 0xae, 0x67, 0xbb, 0x72, 0xf3, 0x6e, 0x3c, 0x3a, 0xf5, 0x4f, 0xa5] ++
  [0x7f, 0x52, 0x0e, 0x51, 0x8c, 0x68, 0x05, 0x9b, 0xab, 0xd9, 0x83, 0x1f, 0x19, 0xcd, 0xe0, 0x5b]

/-- `LOADIV` (R51). -/
def loadIvLines : List AsmLine := [.loadcv loadIvBytes]

/-- What the host keeps of a request for `n` bytes: the segments' bytes in order, cut to `n` (R51, R95). -/
def hostOutput (n : Nat) (segments : List Block) : List Byte := (segments.flatMap bytesOf).take n

/-- The value of a hex digit; both cases are read (log entry 7). -/
def hexDigit (c : Char) : Option Nat :=
  let n := c.toNat
  if 48 ≤ n ∧ n ≤ 57 then some (n - 48)
  else if 97 ≤ n ∧ n ≤ 102 then some (n - 87)
  else if 65 ≤ n ∧ n ≤ 70 then some (n - 55)
  else none

/-- Hex data, byte by byte in stream order, the high nibble first (R50, R96). -/
def readHexBytes : List Char → Option (List Byte)
  | [] => some []
  | [_] => none
  | a :: b :: rest =>
    match hexDigit a, hexDigit b, readHexBytes rest with
    | some x, some y, some bs => some (BitVec.ofNat 8 (16 * x + y) :: bs)
    | _, _, _ => none

/-- Digits in a base, most significant first. -/
def readDigits (base : Nat) : List Char → Nat → Option Nat
  | [], acc => some acc
  | c :: cs, acc =>
    match hexDigit c with
    | some d => if d < base then readDigits base cs (base * acc + d) else none
    | none => none

/-- A number, decimal or 0x hex (R50). -/
def readNumber : List Char → Option Nat
  | [] => none
  | '0' :: 'x' :: d :: ds => readDigits 16 (d :: ds) 0
  | c :: cs => readDigits 10 (c :: cs) 0

/-- The words of a line: blanks and commas separate (log entry 7), and a comment runs from `;` to the end (R50). -/
def lineWords : List Char → List Char → List (List Char)
  | [], acc => if acc = [] then [] else [acc.reverse]
  | c :: cs, acc =>
    if c = ';' then (if acc = [] then [] else [acc.reverse])
    else if c = ' ' ∨ c = '\t' ∨ c = '\r' ∨ c = ',' then (if acc = [] then lineWords cs [] else acc.reverse :: lineWords cs [])
    else lineWords cs (c :: acc)

/-- The line of a mnemonic and its operands (R50, R51); a pseudo-instruction gives its expansion.
DESIGN CHOICE (log entry 7): the bytes of HASH are written as hex digits, HASH with no operand is L = 0, UPDATE may lack its hex string,
and every number is decimal or 0x hex. -/
def readWords : List (List Char) → Option (List AsmLine)
  | [] => some []
  | [['N', 'O', 'P']] => some [.nop]
  | [['R', 'E', 'S', 'E', 'T']] => some [.reset]
  | [['U', 'P', 'D', 'A', 'T', 'E'], n] => (readNumber n).map fun n => [.update n []]
  | [['U', 'P', 'D', 'A', 'T', 'E'], n, h] =>
    match readNumber n, readHexBytes h with
    | some n, some bs => some [.update n bs]
    | _, _ => none
  | [['F', 'I', 'N', 'A', 'L', 'I', 'Z', 'E']] => some [.finalize]
  | [['S', 'Q', 'U', 'E', 'E', 'Z', 'E']] => some [.squeeze]
  | [['S', 'E', 'E', 'K'], k] => (readNumber k).map fun k => [.seek k]
  | [['L', 'O', 'A', 'D', 'C', 'V'], h] => (readHexBytes h).map fun bs => [.loadcv bs]
  | [['C', 'O', 'M', 'P', 'R', 'E', 'S', 'S'], bl, fl, k, h] =>
    match readNumber bl, readNumber fl, readNumber k, readHexBytes h with
    | some bl, some fl, some k, some bs => some [.compress bl fl k bs]
    | _, _, _, _ => none
  | [['C', 'L', 'R', 'E', 'R', 'R']] => some [.clrerr]
  | [['.', 'w', 'o', 'r', 'd'], w] => (readNumber w).map fun w => [.word w]
  | [['H', 'A', 'S', 'H']] => some (hashLines [])
  | [['H', 'A', 'S', 'H'], h] => (readHexBytes h).map hashLines
  | [['D', 'I', 'G', 'E', 'S', 'T']] => some digestLines
  | [['X', 'O', 'F'], n] => (readNumber n).map xofLines
  | [['X', 'O', 'F', 'A', 'T'], k, n] =>
    match readNumber k, readNumber n with
    | some k, some n => some (xofatLines k n)
    | _, _ => none
  | [['L', 'O', 'A', 'D', 'I', 'V']] => some loadIvLines
  | _ => none

/-- One line of text (R50); none where it is no line of the syntax, no lines where it is blank or a comment. -/
def readLine (line : List Char) : Option (List AsmLine) := readWords (lineWords line [])

/-- The digit of a nibble in hex text, lowercase (R96). -/
def nibbleChar (n : Nat) : Char := if n < 10 then Char.ofNat (48 + n) else Char.ofNat (87 + n)

/-- The hex text of a byte string: the most significant nibble first, in stream order, no separators (R96). -/
def hexText (bs : List Byte) : List Char :=
  bs.flatMap fun b => [nibbleChar (b.toNat / 16), nibbleChar (b.toNat % 16)]

end Sys2Proof.Machine
end

