-- ==== Sys2Proof/Machine/Ports.lean ====
section
/-! DEFINITION. The output ports a host reads (R26, R27, R33, R34): computed from the registers, with no side effect (R40). -/

namespace Sys2Proof.Machine

/-- The values of the read-only output ports, less `cmd_ready`, which belongs to the clock level (R33). -/
structure OutPorts where
  dout      : Bus
  doutValid : Bool
  status    : Word
  chunkCtr  : Counter
  outCtr    : Counter
  deriving DecidableEq, Repr

/-- What the output ports show in a state: `bytes(DOUT)` lane by lane, DVALID, STATUS, CHUNK and OCTR (R33).
CV, BLK, STK and the output node registers are not observable (R109). -/
def State.ports (s : State) : OutPorts where
  dout := busOf (bytesOf s.dout)
  doutValid := s.dvalid
  status := statusWord s
  chunkCtr := s.chunk
  outCtr := s.octr

end Sys2Proof.Machine
end

