-- ==== Sys2Proof/Machine/Clock.lean ====
section
/-! DEFINITION. The clock level beside the step: hardware reset, the valid/ready handshake, busy cycles, the OPEN latencies and
the output ports at each rising edge (R110, R111, R114, R115, R117 to R120). The step of R116 does not depend on this file. -/

namespace Sys2Proof.Machine

/-- The input ports as sampled at one rising edge of `clk` (R33). -/
structure Pins where
  rstN     : Bool
  cmdValid : Bool
  cmd      : Word
  din      : Bus
  aux      : Counter
  deriving DecidableEq, Repr

/-- The command the pins offer. -/
def Pins.command (p : Pins) : Command := ⟨p.cmd, p.din, p.aux⟩

/-- The core between two rising edges. -/
inductive Clocked where
  /-- Power was lost and no reset has come since: the registers of `s` are lost and show on no port (R110). -/
  | unpowered (s : State)
  /-- The last edge had `rst_n = 0`: every register holds its reset value and `cmd_ready = 0` (R111). -/
  | inReset (s : State)
  /-- No command executes and `cmd_ready = 1` (R114). -/
  | idle (s : State)
  /-- `c` executes: `s` is what the last completed command left, and `left` edges come before the completing one (R115, R118). -/
  | busy (s : State) (c : Command) (left : Nat)
  deriving DecidableEq, Repr

/-- The state the last completed command left. -/
def Clocked.state : Clocked → State
  | .unpowered s => s
  | .inReset s => s
  | .idle s => s
  | .busy s _ _ => s

/-- `cmd_ready` (R111, R114, R115). -/
def Clocked.cmdReady : Clocked → Bool
  | .idle _ => true
  | .unpowered _ | .inReset _ | .busy _ _ _ => false

/-- The other output ports keep the values the last completed command left (R118); without power they show nothing. -/
def Clocked.ports : Clocked → Option OutPorts
  | .unpowered _ => none
  | .inReset s => some s.ports
  | .idle s => some s.ports
  | .busy s _ _ => some s.ports

/-- The values a latency may read (R119): LEN and the control registers, no data. -/
def latencyKey (w : Word) (s : State) : LatencyKey := ⟨lenField w, s.blen, s.bcnt, s.chunk, s.sp⟩

/-- `LAT_<op> - 1` for a command that executes (R119). -/
def extraCycles (op : Opcode) (k : LatencyKey) : Nat :=
  match op with
  | .nop => Config.extraNop k
  | .reset => Config.extraReset k
  | .update => Config.extraUpdate k
  | .finalize => Config.extraFinalize k
  | .squeeze => Config.extraSqueeze
  | .seek => Config.extraSeek k
  | .loadcv => Config.extraLoadcv k
  | .compress => Config.extraCompress
  | .clrerr => Config.extraClrerr k

/-- The cycles beyond the first that an accepted word takes: `LAT_REFUSED - 1` if it is refused, else `LAT_<op> - 1` (R119). -/
def latencyExtra (w : Word) (s : State) : Nat :=
  match refusalOf w s with
  | some _ => Config.extraRefused (opField w) (latencyKey w s)
  | none =>
    match opcodeOf (opField w) with
    | none => Config.extraRefused (opField w) (latencyKey w s)
    | some op => extraCycles op (latencyKey w s)

/-- The latency of an accepted word, at least 1 (R119). -/
def latency (w : Word) (s : State) : Nat := latencyExtra w s + 1

/-- The executing command completes: its whole effect appears and the core is ready again (R115). -/
def complete (c : Command) (s : State) : Host.Outcome Clocked Fault Refusal :=
  match runCommand c s with
  | .next t => .next (.idle t)
  | .fault f => .fault f
  | .refused r => .refused r

/-- A command is accepted at this edge: with latency 1 it completes at the same edge, else the core is busy (R115). -/
def startCommand (c : Command) (s : State) : Host.Outcome Clocked Fault Refusal :=
  match latencyExtra c.cmd s with
  | 0 => complete c s
  | left + 1 => .next (.busy s c left)

/-- One rising edge of `clk` (R111, R114, R115, R120).
After reset the first edge with `rst_n = 1` makes the core ready and accepts nothing (log entry 6). -/
def edge (k : Clocked) (p : Pins) : Host.Outcome Clocked Fault Refusal :=
  if p.rstN then
    match k with
    | .unpowered s => .next (.unpowered s)
    | .inReset s => .next (.idle s)
    | .idle s => if p.cmdValid then startCommand p.command s else .next (.idle s)
    | .busy s c 0 => complete c s
    | .busy s c (left + 1) => .next (.busy s c left)
  else .next (.inReset k.state.loadReset)

/-- Loss of power loses the state (R110): from here on the registers of `k.state` are unreadable until a reset overwrites them.
DESIGN CHOICE (log entry 12): R110 is silent on what is no register of the core, so the position, the queue and the sampled `cmd`,
`din` and `aux` of the last completed command stay, and a command that was executing is dropped and does not count in the position. -/
def losePower (k : Clocked) : Clocked := .unpowered k.state

/-- Rising edges one after the other. -/
def edges : List Pins → Clocked → Host.Outcome Clocked Fault Refusal
  | [], k => .next k
  | p :: ps, k =>
    match edge k p with
    | .next k' => edges ps k'
    | .fault f => .fault f
    | .refused r => .refused r

/-- The command accepted at an edge, if there is one (R114). -/
def acceptedAt (k : Clocked) (p : Pins) : Option Command :=
  if p.rstN && k.cmdReady && p.cmdValid then some p.command else none

/-- The commands accepted over a list of edges, in order (R41). -/
def acceptedOver : List Pins → Clocked → List Command
  | [], _ => []
  | p :: ps, k =>
    match edge k p with
    | .next k' => (acceptedAt k p).toList ++ acceptedOver ps k'
    | .fault _ => (acceptedAt k p).toList
    | .refused _ => (acceptedAt k p).toList

/-- The host's duty between two edges (R114): an offer that is not accepted is kept unchanged. No premise of the model (log entry 10). -/
def hostKeepsOffer (k : Clocked) (p q : Pins) : Bool :=
  !p.cmdValid || (acceptedAt k p).isSome || (q.cmdValid && decide (q.command = p.command))

end Sys2Proof.Machine
end

