-- ==== Sys2Proof/Machine/Reference.lean ====
section
/-! DEFINITION. The hash as a function of the whole byte stream, written from the descriptions of R19, R72, R73 and R87 and not
from the commands: what the registers must hold once the bytes `data` have been absorbed. Claims compare the machine with it. -/

namespace Sys2Proof.Machine

/-- The index of the last unit, block or chunk, of a stream of `len` bytes; the empty stream has unit 0. -/
def lastUnit (len unit : Nat) : Nat := (len - 1) / unit

/-- The bytes of chunk `n` of the stream. -/
def chunkBytes (data : List Byte) (n : Nat) : List Byte := (data.drop (CHUNK_LEN * n)).take CHUNK_LEN

/-- The bytes of block `k` of a chunk. -/
def blockBytes (chunk : List Byte) (k : Nat) : List Byte := (chunk.drop (BLOCK_LEN * k)).take BLOCK_LEN

/-- The flags of block `k` of a chunk, less CHUNK_END (R67, R72). -/
def refStart (k : Nat) : Word := if k = 0 then flagChunkStart else 0

/-- The chaining value of chunk `n` after its first `k` blocks, each of length 64 and with the counter `n` (R72, R73). -/
def refChunkCv (n : Nat) (chunk : List Byte) : Nat → ChainValue
  | 0 => IV
  | k + 1 => cvOf ⟨refChunkCv n chunk k, wordsOf 16 (blockBytes chunk k), BitVec.ofNat 64 n, 64, refStart k⟩

/-- The output node of the last block of chunk `n` (R70, R72, R74). -/
def refChunkNode (n : Nat) (chunk : List Byte) : Node :=
  let k := lastUnit chunk.length BLOCK_LEN
  ⟨refChunkCv n chunk k, wordsOf 16 (blockBytes chunk k), BitVec.ofNat 64 n,
    BitVec.ofNat 7 (chunk.length - BLOCK_LEN * k), refStart k ||| flagChunkEnd⟩

/-- The chaining value of the complete subtree over the `2^k` chunks from chunk `n` on (R19, R75 to R77). -/
def refSubtree (data : List Byte) : Nat → Nat → ChainValue
  | 0, n => cvOf (refChunkNode n (chunkBytes data n))
  | k + 1, n => parentCv (refSubtree data k n) (refSubtree data k (n + 2 ^ k))

/-- The one bits of a chunk count from the highest down, each with the first chunk of its subtree: the subtree of bit `k`
follows the chunks of the higher bits (R19). -/
def refPeaks (count : Nat) : List (Nat × Nat) :=
  (List.range 64).reverse.filterMap fun k =>
    if count.testBit k then some (k, count / 2 ^ (k + 1) * 2 ^ (k + 1)) else none

/-- The valid stack entries from the bottom up (R19). -/
def refStack (data : List Byte) (count : Nat) : List ChainValue :=
  (refPeaks count).map fun p => refSubtree data p.1 p.2

/-- The current chunk of a stream: its last one, still open (R71). -/
def refCurrent (data : List Byte) : Nat := lastUnit data.length CHUNK_LEN

/-- The root node of the stream, ROOT not yet set: the open chunk folded with the complete subtrees, smallest first (R87). -/
def refRoot (data : List Byte) : Node :=
  (refStack data (refCurrent data)).foldr (fun l n => parentOutput l (cvOf n))
    (refChunkNode (refCurrent data) (chunkBytes data (refCurrent data)))

/-- Segment `k` of the extendable output of the stream (R88, R91, R94). -/
def refSegment (data : List Byte) (k : Counter) : Block :=
  let n := refRoot data
  compress n.cv n.m k n.bl (n.fl ||| flagRoot)

/-- The bytes absorbed since reset after one more command (R83, R84, R85). -/
def dataAfter (c : Command) (s : State) (data : List Byte) : List Byte :=
  match decode c.cmd with
  | .cmd .reset => []
  | .cmd (.update len) => if ctrOverflow len s then data else data ++ updateData c.din len
  | .cmd _ => data
  | .refuse _ => data

end Sys2Proof.Machine
end

