-- ==== Sys2Proof/Safety.lean ====
section
/-! DEFINITION. What a safe state is: the invariant of the registers (R12 to R25), the meaning of the hash state as a function of
the absorbed bytes (R19, R20, R86), and which states a host cannot tell apart (R17, R21, R116). -/

namespace Sys2Proof.Machine

/-- The number of one bits of a 64-bit count (R19). -/
def onesCount (n : Nat) : Nat := ((List.range 64).filter fun k => n.testBit k).length

/-- The output node registers hold the node `n` with ROOT set (R20, R21, R88). -/
structure HoldsRoot (s : State) (n : Node) : Prop where
  cv    : s.ocv = n.cv
  block : s.oblk = n.m
  len   : s.obl = n.bl
  flags : s.oflg = n.fl ||| flagRoot

/-- The part of the invariant that speaks of the chunk processor and the stack. -/
structure HashInv (s : State) : Prop where
  /-- BLEN is in 0..64 (R13). -/
  blen_le : s.blen.toNat ≤ 64
  /-- Bytes `BLK[BLEN..63]` are zero (R12). -/
  blk_zero : ∀ i (h : i < 64), s.blen.toNat ≤ i → s.blk[i] = 0
  /-- BLEN = 0 only while no byte has been absorbed: then BCNT, CHUNK and SP are 0 (R15). -/
  empty : s.blen = 0 → s.bcnt = 0 ∧ s.chunk = 0 ∧ s.sp = 0
  /-- SP is the number of one bits of CHUNK (R19). -/
  sp_ones : s.sp.toNat = onesCount s.chunk.toNat

/-- The invariant of the registers that spec/10_state.md states. -/
structure Inv (s : State) : Prop where
  /-- The chunk processor and the stack (R12 to R19). -/
  hash : HashInv s
  /-- While OUTV is set, the output node registers hold the root node of the input absorbed so far (R20). -/
  root : s.outv = true → ∃ n, rootNode s = .ok n ∧ HoldsRoot s n
  /-- ERRCODE is 0 when no refusal is recorded (R25, R99). -/
  err_none : s.err = false → s.errcode = 0
  /-- ERRCODE is one of 1 to 5 when one is recorded (R25, R99). -/
  err_some : s.err = true → 1 ≤ s.errcode.toNat ∧ s.errcode.toNat ≤ 5

/-- The hash state is the one the bytes `data` lead to (R11 to R20, R86). -/
structure Absorbed (data : List Byte) (s : State) : Prop where
  /-- CHUNK is the index of the last chunk, still open (R16, R71). -/
  chunk : s.chunk.toNat = refCurrent data
  /-- BCNT counts the blocks of that chunk before its last (R14). -/
  bcnt  : s.bcnt.toNat = lastUnit (chunkBytes data (refCurrent data)).length BLOCK_LEN
  /-- BLEN is what is left for the last block (R13, R15). -/
  blen  : chunkLen s = (chunkBytes data (refCurrent data)).length
  /-- CV is the chunk's chaining value after BCNT blocks (R11). -/
  cv    : s.cv = refChunkCv (refCurrent data) (chunkBytes data (refCurrent data)) s.bcnt.toNat
  /-- BLK holds the last block's bytes and then zeros (R12). -/
  blk   : s.blk.toList = blockBytes (chunkBytes data (refCurrent data)) s.bcnt.toNat ++ List.replicate (64 - s.blen.toNat) 0
  /-- The valid stack entries are the chaining values of the complete subtrees (R17 to R19). -/
  stack : s.stk.toList.take s.sp.toNat = refStack data (refCurrent data)
  /-- SP is the number of complete subtrees (R18, R19). -/
  sp    : s.sp.toNat = (refPeaks (refCurrent data)).length

/-- While OUTV is set, the output node registers hold the root node of the stream `data` (R20, R21). -/
def RootLatched (data : List Byte) (s : State) : Prop := s.outv = true → HoldsRoot s (refRoot data)

/-- The registers that no command can show to the host: stack entries at or above SP (R17), the output node registers
while OUTV = 0 (R21), and the model's counter of free values. Two states that agree on everything else look the same. -/
structure SameObservable (s t : State) : Prop where
  /-- Every other field is equal. -/
  rest  : { t with stk := s.stk, ocv := s.ocv, oblk := s.oblk, obl := s.obl, oflg := s.oflg, freeCtr := s.freeCtr } = s
  /-- The valid stack entries are equal. -/
  stack : ∀ j (h : j < 64), j < s.sp.toNat → s.stk[j] = t.stk[j]
  /-- The output node registers are equal while OUTV = 1. -/
  node  : s.outv = true → s.ocv = t.ocv ∧ s.oblk = t.oblk ∧ s.obl = t.obl ∧ s.oflg = t.oflg

/-- Two outcomes a host cannot tell apart: both next states look the same, or both stop for the same reason. -/
def SameOutcome : Host.Outcome State Fault Refusal → Host.Outcome State Fault Refusal → Prop
  | .next s, .next t => SameObservable s t
  | .fault f, .fault g => f = g
  | .refused r, .refused q => r = q
  | .next _, .fault _ => False
  | .next _, .refused _ => False
  | .fault _, .next _ => False
  | .fault _, .refused _ => False
  | .refused _, .next _ => False
  | .refused _, .fault _ => False

/-- `s` with the chunk processor and stack registers of `t`: CV, BLK, BLEN, BCNT, CHUNK, STK and SP. -/
def State.withHashOf (s t : State) : State :=
  { s with cv := t.cv, blk := t.blk, blen := t.blen, bcnt := t.bcnt, chunk := t.chunk, stk := t.stk, sp := t.sp }

end Sys2Proof.Machine
end

