-- ==== Sys2Proof/Certificates/Slice0/Obligations.lean ====
section
/-! DEFINITION. The statements about the model, for the provers: what the numbered rules of spec/ say the core does. -/

open Sys2Proof Sys2Proof.Machine

namespace Sys2Proof.Claims

/-- `w0` is the only legal word of the opcode value `op`: every other word with it is refused with RSVD_BITS (R46). -/
def OnlyLegalWord (op : BitVec 4) (w0 : Word) (i : Instr) : Prop :=
  decode w0 = .cmd i ∧ ∀ w : Word, w.extractLsb' 0 4 = op → w ≠ w0 → decode w = .refuse .rsvdBits

/-- Every word of UPDATE and COMPRESS is decoded, or refused with RSVD_BITS outside `mask`, else with BAD_LEN above 64 (R44, R46). -/
def LegalWords (op : BitVec 4) (mask : Word) (i : BlockLen → Byte → Instr) : Prop :=
  ∀ w : Word, w.extractLsb' 0 4 = op →
    (w &&& mask ≠ op.zeroExtend 32 → decode w = .refuse .rsvdBits) ∧
    (w &&& mask = op.zeroExtend 32 → 64 < (w.extractLsb' 4 7).toNat → decode w = .refuse .badLen) ∧
    (w &&& mask = op.zeroExtend 32 → (w.extractLsb' 4 7).toNat ≤ 64 →
      decode w = .cmd (i (w.extractLsb' 4 7) (w.extractLsb' 16 8)))

/-- Every field of `t` but those that `f` names for both states is that of `s`: `t` with them put back is `s`. -/
def SameBut (restore : State → State → State) (s t : State) : Prop := restore s t = s

/-- `t` with the output node, OCTR and OUTV of `s`. -/
def restoreNode (s t : State) : State :=
  { t with ocv := s.ocv, oblk := s.oblk, obl := s.obl, oflg := s.oflg, octr := s.octr, outv := s.outv }

/-- `t` with DOUT, DVALID and OCTR of `s`. -/
def restoreOutput (s t : State) : State := { t with dout := s.dout, dvalid := s.dvalid, octr := s.octr }

/-- `t` with ERR and ERRCODE of `s`. -/
def restoreError (s t : State) : State := { t with err := s.err, errcode := s.errcode }

/-- The value being pushed after `i` merges with the entries below the top of the stack (R78). -/
def mergedCv (s : State) (cv : ChainValue) : Nat → ChainValue
  | 0 => cv
  | i + 1 => parentCv (s.stk.toList.getD (s.sp.toNat - 1 - i) cv) (mergedCv s cv i)

/-- The four column applications of G by themselves (R57). -/
def columnMixes (m : Block) : List (Block → Block) :=
  [fun s => mixG s 0 4 8 12 m[0] m[1], fun s => mixG s 1 5 9 13 m[2] m[3],
   fun s => mixG s 2 6 10 14 m[4] m[5], fun s => mixG s 3 7 11 15 m[6] m[7]]

/-- The four diagonal applications of G by themselves (R57). -/
def diagonalMixes (m : Block) : List (Block → Block) :=
  [fun s => mixG s 0 5 10 15 m[8] m[9], fun s => mixG s 1 6 11 12 m[10] m[11],
   fun s => mixG s 2 7 8 13 m[12] m[13], fun s => mixG s 3 4 9 14 m[14] m[15]]

/-- Functions applied one after the other. -/
def applyAll (fs : List (Block → Block)) (s : Block) : Block := fs.foldl (fun x f => f x) s

/-- The table of R63: the original word index in each slot, round by round. -/
def scheduleTable : List (List (Fin 16)) :=
  [[0, 1, 2, 3, 4, 5, 6, 7, 8, 9, 10, 11, 12, 13, 14, 15],
   [2, 6, 3, 10, 7, 0, 4, 13, 1, 11, 12, 5, 9, 14, 15, 8],
   [3, 4, 10, 12, 13, 2, 7, 14, 6, 5, 9, 0, 11, 15, 8, 1],
   [10, 7, 12, 9, 14, 3, 13, 15, 4, 0, 11, 2, 5, 8, 1, 6],
   [12, 13, 9, 11, 15, 10, 14, 8, 7, 2, 5, 3, 0, 1, 6, 4],
   [9, 14, 11, 5, 8, 12, 15, 1, 13, 3, 0, 10, 2, 6, 4, 7],
   [11, 15, 5, 0, 1, 9, 8, 6, 14, 10, 2, 12, 3, 4, 7, 13]]

/-- SQUEEZE `n` times. -/
def squeezeTimes : Nat → State → Host.Outcome State Fault Refusal
  | 0, s => .next s
  | n + 1, s =>
    match squeezeTimes n s with
    | .next t => exec .squeeze t
    | .fault f => .fault f
    | .refused r => .refused r

/-- The command is an UPDATE that the decoder takes; its lanes at and above LEN and its `aux` hold anything (R39). -/
def IsUpdate (c : Command) : Prop := ∃ len, decode c.cmd = .cmd (.update len)

/-- The bytes an UPDATE command carries: lanes 0 to LEN - 1 of its bus (R34). -/
def updateBytes (c : Command) : List Byte :=
  match decode c.cmd with
  | .cmd (.update len) => updateData c.din len
  | .cmd _ => []
  | .refuse _ => []

/-- The command word neither resets the core nor absorbs bytes. -/
def leavesStream (w : Word) : Bool :=
  match decode w with
  | .cmd .reset => false
  | .cmd (.update _) => false
  | .cmd _ => true
  | .refuse _ => true

/-- The state in which an accepted command starts. -/
def started (s : State) (c : Command) (rest : List Command) : State := { s with queue := rest }.accept c

end Sys2Proof.Claims

open Sys2Proof.Claims

/-! Encoding and decoding (R42 to R51). -/

/-- R42, R43, R44, R45: decoding the word of a well-formed command gives the command back, with every field value. -/
def Obligations.DecodeOfEncodeIsTheCommand : Prop :=
  ∀ i : Instr, i.wf = true → decode (encode i) = .cmd i

/-- R46, R49: a word that decodes is the one word of its command, and the command is well formed. -/
def Obligations.EncodeOfDecodeIsTheWord : Prop :=
  ∀ (w : Word) (i : Instr), decode w = .cmd i → i.wf = true ∧ encode i = w

/-- R49: the outcome of every word, check by check in the order given, and no state check among them. -/
def Obligations.DecodeMakesItsChecksInOrder : Prop :=
  ∀ w : Word,
    let op := (w.extractLsb' 0 4).toNat
    let len := w.extractLsb' 4 7
    let flg := w.extractLsb' 16 8
    let rsvd := w.extractLsb' 11 5 ≠ 0 ∨ w.extractLsb' 24 8 ≠ 0
    let badLenField := len ≠ 0 ∧ op ≠ 2 ∧ op ≠ 7
    let badFlgField := flg ≠ 0 ∧ op ≠ 7
    let tooLong := 64 < len.toNat
    (8 < op → decode w = .refuse .illegalOp) ∧
    (op ≤ 8 → rsvd → decode w = .refuse .rsvdBits) ∧
    (op ≤ 8 → ¬rsvd → badLenField → decode w = .refuse .rsvdBits) ∧
    (op ≤ 8 → ¬rsvd → ¬badLenField → badFlgField → decode w = .refuse .rsvdBits) ∧
    (op ≤ 8 → ¬rsvd → ¬badLenField → ¬badFlgField → tooLong → decode w = .refuse .badLen) ∧
    (op ≤ 8 → ¬rsvd → ¬badLenField → ¬badFlgField → ¬tooLong →
      (op = 0 → decode w = .cmd .nop) ∧ (op = 1 → decode w = .cmd .reset) ∧ (op = 2 → decode w = .cmd (.update len)) ∧
      (op = 3 → decode w = .cmd .finalize) ∧ (op = 4 → decode w = .cmd .squeeze) ∧ (op = 5 → decode w = .cmd .seek) ∧
      (op = 6 → decode w = .cmd .loadcv) ∧ (op = 7 → decode w = .cmd (.compress len flg)) ∧
      (op = 8 → decode w = .cmd .clrerr)) ∧
    decode w ≠ .refuse .noOutput ∧ decode w ≠ .refuse .ctrOvf

/-- R43 and the table: words written out bit by bit decode to the commands they stand for. -/
def Obligations.WrittenWordsDecode : Prop :=
  decode 0b00000000000000000000000000000000 = .cmd .nop ∧
  decode 0b00000000000000000000000000000001 = .cmd .reset ∧
  decode 0b00000000000000000000010000000010 = .cmd (.update 64) ∧
  decode 0b00000000000000000000000000000011 = .cmd .finalize ∧
  decode 0b00000000000000000000000000000100 = .cmd .squeeze ∧
  decode 0b00000000000000000000000000000101 = .cmd .seek ∧
  decode 0b00000000000000000000000000000110 = .cmd .loadcv ∧
  decode 0b00000000101001010000000000110111 = .cmd (.compress 3 0xA5) ∧
  decode 0b00000000000000000000000000001000 = .cmd .clrerr

/-- R46: a bit set outside an opcode's fields is refused with RSVD_BITS and has no other effect, and the seven commands
without fields have one legal word each. -/
def Obligations.UnusedBitsMustBeZero : Prop :=
  (∀ (c : Command) (s : State), (c.cmd.extractLsb' 0 4).toNat ≤ 8 →
    c.cmd &&& (if c.cmd.extractLsb' 0 4 = 2 then 0xFFFFF800 else if c.cmd.extractLsb' 0 4 = 7 then 0xFF00F800 else 0xFFFFFFF0) ≠ 0 →
    decode c.cmd = .refuse .rsvdBits ∧ runCommand c s = .next ((s.accept c).refuse .rsvdBits)) ∧
  (∀ w : Word, (decode w = .cmd .nop ↔ w = 0x00000000) ∧ (decode w = .cmd .reset ↔ w = 0x00000001) ∧
    (decode w = .cmd .finalize ↔ w = 0x00000003) ∧ (decode w = .cmd .squeeze ↔ w = 0x00000004) ∧
    (decode w = .cmd .seek ↔ w = 0x00000005) ∧ (decode w = .cmd .loadcv ↔ w = 0x00000006) ∧
    (decode w = .cmd .clrerr ↔ w = 0x00000008))

/-- R47: an opcode value 0x9 to 0xF is refused with ILLEGAL_OP whatever the other bits hold, and has no other effect. -/
def Obligations.ReservedOpcodesAreIllegal : Prop :=
  ∀ (c : Command) (s : State), 9 ≤ (c.cmd.extractLsb' 0 4).toNat →
    decode c.cmd = .refuse .illegalOp ∧ runCommand c s = .next ((s.accept c).refuse .illegalOp)

/-- R44: LEN is the unscaled value of bits 10:4; 0 to 64 are legal, and 65 to 127 are refused with BAD_LEN and no other effect.
That exec itself refuses an UPDATE or COMPRESS term with LEN above 64, which no word decodes to, is the model's inference (log entry 11). -/
def Obligations.LenAbove64IsRefused : Prop :=
  LegalWords 0x2 0xFFFFF80F (fun len _ => .update len) ∧ LegalWords 0x7 0xFF00F80F .compress ∧
  (∀ (len : BlockLen) (flg : Byte) (s : State), 64 < len.toNat →
    exec (.update len) s = .next (s.refuse .badLen) ∧ exec (.compress len flg) s = .next (s.refuse .badLen)) ∧
  (∀ (len : BlockLen) (c : Command) (s : State), 64 < len.toNat →
    c.cmd = 0x2 ||| (len.zeroExtend 32 <<< 4) → runCommand c s = .next ((s.accept c).refuse .badLen)) ∧
  (∀ (len : BlockLen) (flg : Byte) (c : Command) (s : State), 64 < len.toNat →
    c.cmd = 0x7 ||| (len.zeroExtend 32 <<< 4) ||| (flg.zeroExtend 32 <<< 16) → runCommand c s = .next ((s.accept c).refuse .badLen))

/-- R50: each line of the textual syntax is assembled to a word that decodes to its command, with its bytes in lanes 0, 1, 2, ...
and zero above them, and `aux` its counter. -/
def Obligations.AssembledLinesDecodeToTheirCommands : Prop :=
  (∀ l w i, (l, w, i) ∈ [(AsmLine.nop, (0 : Word), Instr.nop), (.reset, 1, .reset), (.finalize, 3, .finalize), (.squeeze, 4, .squeeze),
      (.clrerr, 8, .clrerr)] → assemble l = some ⟨w, 0, 0⟩ ∧ decode w = .cmd i) ∧
  (∀ (n : Nat) (d : List Byte), n ≤ 64 → d.length = n →
    ∃ c, assemble (.update n d) = some c ∧ decode c.cmd = .cmd (.update (BitVec.ofNat 7 n)) ∧ c.aux = 0 ∧
      ∀ i < 64, busByte c.din i = d.getD i 0) ∧
  (∀ k : Nat, k < 2 ^ 64 → ∃ c, assemble (.seek k) = some c ∧ decode c.cmd = .cmd .seek ∧ c.aux.toNat = k ∧ c.din = 0) ∧
  (∀ d : List Byte, d.length = 32 → ∃ c, assemble (.loadcv d) = some c ∧ decode c.cmd = .cmd .loadcv ∧ c.aux = 0 ∧
    ∀ i < 64, busByte c.din i = d.getD i 0) ∧
  (∀ (bl fl k : Nat) (d : List Byte), bl ≤ 64 → fl < 256 → k < 2 ^ 64 → d.length = 64 →
    ∃ c, assemble (.compress bl fl k d) = some c ∧ decode c.cmd = .cmd (.compress (BitVec.ofNat 7 bl) (BitVec.ofNat 8 fl)) ∧
      c.aux.toNat = k ∧ ∀ i < 64, busByte c.din i = d.getD i 0) ∧
  (∀ w : Word, assemble (.word w.toNat) = some ⟨w, 0, 0⟩)

/-- R51: the UPDATEs of HASH carry the bytes in order, 64 in each but the last, and none is empty. -/
def Obligations.HashExpansionCarriesTheBytes : Prop :=
  ∀ bs : List Byte, ∃ ds : List (List Byte),
    hashLines bs = ds.map (fun d => AsmLine.update d.length d) ∧ ds.flatten = bs ∧
    (∀ d ∈ ds, 0 < d.length ∧ d.length ≤ 64) ∧ (∀ d ∈ ds.dropLast, d.length = 64)

/-- R50, R96: the hex text of bytes has two digits for each and reads back as the same bytes in the same order; its digits are lowercase;
and 32 bytes give 64 characters. -/
def Obligations.HexTextReadsBack : Prop :=
  ∀ bs : List Byte, readHexBytes (hexText bs) = some bs ∧ (hexText bs).length = 2 * bs.length ∧
    (bs.length = 32 → (hexText bs).length = 64) ∧
    ∀ c ∈ hexText bs, (48 ≤ c.toNat ∧ c.toNat ≤ 57) ∨ (97 ≤ c.toNat ∧ c.toNat ≤ 102)

/-! Registers, ports and byte order (R11 to R27, R34 to R36). -/

/-- R11 to R27, R111: the reset values the spec gives. STK, OCV, OBLK, OBL and OFLG are not spoken of: their values there are the
model's choice (log entry 1). -/
def Obligations.ResetStateHasTheSpecValues : Prop :=
  let s := State.reset
  s.cv = #v[0x6A09E667, 0xBB67AE85, 0x3C6EF372, 0xA54FF53A, 0x510E527F, 0x9B05688C, 0x1F83D9AB, 0x5BE0CD19] ∧
  s.blk = Vector.replicate 64 0 ∧ s.blen = 0 ∧ s.bcnt = 0 ∧ s.chunk = 0 ∧ s.sp = 0 ∧ s.outv = false ∧ s.octr = 0 ∧
  s.rawcv = s.cv ∧ s.dout = Vector.replicate 16 0 ∧ s.dvalid = false ∧ s.err = false ∧ s.errcode = 0 ∧
  statusWord s = 0x00000040 ∧ s.ports.chunkCtr = 0 ∧ s.ports.outCtr = 0

/-- R26: every field of STATUS, and its reset value. -/
def Obligations.StatusShowsItsFields : Prop :=
  (∀ s : State,
    ((statusWord s).getLsbD 0 = s.err) ∧
    ((statusWord s).extractLsb' 1 3 = s.errcode) ∧
    ((statusWord s).getLsbD 4 = s.outv) ∧
    ((statusWord s).getLsbD 5 = s.dvalid) ∧
    ((statusWord s).getLsbD 6 = true ↔ s.chunk = 0 ∧ s.bcnt = 0 ∧ s.blen = 0) ∧
    ((statusWord s).extractLsb' 7 7 = s.blen) ∧
    ((statusWord s).extractLsb' 14 4 = s.bcnt) ∧
    ((statusWord s).extractLsb' 18 7 = s.sp) ∧
    ((statusWord s).extractLsb' 25 7 = 0) ∧
    (s.ports.status = statusWord s)) ∧
  State.reset.ports.status = 0x00000040

/-- R34, R35, R36: the byte lanes of both buses and the little-endian packing and unpacking of words. -/
def Obligations.BusesAndWordsAreLittleEndian : Prop :=
  (∀ (d : Bus) (i : Nat), i < 64 → busByte d i = d.extractLsb' (8 * i) 8) ∧
  (∀ (d : Bus) (len : BlockLen), (updateData d len).length = len.toNat ∧
    ∀ i (h : i < (updateData d len).length), (updateData d len)[i] = d.extractLsb' (8 * i) 8) ∧
  (∀ (n : Nat) (b : List Byte) (i : Nat) (h : i < n), (wordsOf n b)[i] =
    (b.getD (4 * i) 0).zeroExtend 32 ||| ((b.getD (4 * i + 1) 0).zeroExtend 32 <<< 8) |||
      ((b.getD (4 * i + 2) 0).zeroExtend 32 <<< 16) ||| ((b.getD (4 * i + 3) 0).zeroExtend 32 <<< 24)) ∧
  (∀ (n : Nat) (w : Vector Word n), (bytesOf w).length = 4 * n ∧
    ∀ (i k : Nat) (h : i < n), k < 4 → (bytesOf w)[4 * i + k]? = some (w[i].extractLsb' (8 * k) 8)) ∧
  (∀ (s : State) (i : Nat), i < 64 → (bytesOf s.dout)[i]? = some (s.ports.dout.extractLsb' (8 * i) 8)) ∧
  (∀ (s t : State), exec .squeeze s = .next t → digestOf t.dout = (bytesOf t.dout).take 32 ∧ (digestOf t.dout).length = 32)

/-- R35, R36: packing and unpacking undo each other. -/
def Obligations.WordsAndBytesAreInverse : Prop :=
  (∀ (n : Nat) (w : Vector Word n), wordsOf n (bytesOf w) = w) ∧
  (∀ (n : Nat) (b : List Byte), b.length = 4 * n → bytesOf (wordsOf n b) = b) ∧
  (∀ b : List Byte, b.length ≤ 64 → busBytes (busOf b) b.length = b)

/-! The compression function (R52 to R63) and output nodes (R70, R75 to R77). -/

/-- R55, R56: G on four different words of the state, each line reading what the lines before it wrote; every other word is unchanged;
and the worked example. `rotr` is the rotation of the word. -/
def Obligations.QuarterRoundMixesFourWords : Prop :=
  (∀ (x : Word) (n : Nat), 0 < n → n < 32 → rotr x n = x.rotateRight n) ∧
  (∀ (s : Block) (a b c d : Fin 16) (mx my : Word), [a, b, c, d].Nodup →
    let a1 := s[a] + s[b] + mx
    let d1 := (s[d] ^^^ a1).rotateRight 16
    let c1 := s[c] + d1
    let b1 := (s[b] ^^^ c1).rotateRight 12
    let a2 := a1 + b1 + my
    let d2 := (d1 ^^^ a2).rotateRight 8
    let c2 := c1 + d2
    let b2 := (b1 ^^^ c2).rotateRight 7
    let r := mixG s a b c d mx my
    r[a] = a2 ∧ r[b] = b2 ∧ r[c] = c2 ∧ r[d] = d2 ∧ ∀ i : Fin 16, i ∉ [a, b, c, d] → r[i] = s[i]) ∧
  (∀ s : Block, s[0] = 1 → s[4] = 2 → s[8] = 3 → s[12] = 4 →
    let r := mixG s 0 4 8 12 5 6
    r[0] = 0x001000CE ∧ r[4] = 0x879C3839 ∧ r[8] = 0xCE0C1C03 ∧ r[12] = 0xCE001C00)

/-- R57: a round is the columns and then the diagonals, and the four applications of each half may run in any order. -/
def Obligations.RoundHalvesMayRunInAnyOrder : Prop :=
  ∀ (s m : Block) (cols diags : List (Block → Block)),
    List.Perm cols (columnMixes m) → List.Perm diags (diagonalMixes m) →
    mixRound s m = applyAll diags (applyAll cols s)

/-- R54, R59, R63: the seven rounds read the message words in the tabulated order. -/
def Obligations.RoundsReadTheMessageSchedule : Prop :=
  ∀ (s m : Block),
    (∀ (r : Nat) (i : Fin 16) (row : List (Fin 16)) (j : Fin 16), scheduleTable[r]? = some row → row[i.val]? = some j →
      (permute^[r] m)[i] = m[j]) ∧
    mixRounds ROUNDS s m = (List.range 7).foldl (fun x r => mixRound x (permute^[r] m)) s

/-- R58, R60, R61: the initial state word by word, the feed-forward, and the chaining value as the first 8 words. -/
def Obligations.CompressionOutputIsTheFeedForward : Prop :=
  ∀ (cv : ChainValue) (m : Block) (t : Counter) (bl : BlockLen) (fl : Word),
    let s0 := initState cv t bl fl
    let s := mixRounds 7 s0 m
    let out := compress cv m t bl fl
    (∀ i (h : i < 8), s0[i] = cv[i]) ∧ (∀ i (h : i < 4), s0[i + 8] = IV[i]) ∧
    s0[12] = t.extractLsb' 0 32 ∧ s0[13] = t.extractLsb' 32 32 ∧ s0[14] = bl.zeroExtend 32 ∧ s0[15] = fl ∧
    (∀ i (h : i < 8), out[i] = s[i] ^^^ s[i + 8] ∧ out[i + 8] = s[i + 8] ^^^ cv[i]) ∧
    (∀ i (h : i < 8), (cvOf ⟨cv, m, t, bl, fl⟩)[i] = out[i])

/-- R67, R70, R75, R76, R77: the output nodes of a chunk's last block and of a parent. -/
def Obligations.OutputNodesOfChunksAndParents : Prop :=
  (∀ s : State, startFlag s = (if s.bcnt = 0 then 0x01 else 0x00) ∧
    chunkOutput s = ⟨s.cv, wordsOf 16 s.blk.toList, s.chunk, s.blen, startFlag s ||| 0x02⟩) ∧
  (∀ l r : ChainValue, parentOutput l r = ⟨IV, joinCvs l r, 0, 64, 0x04⟩ ∧ parentCv l r = cvOf (parentOutput l r) ∧
    ∀ i (h : i < 8), (joinCvs l r)[i] = l[i] ∧ (joinCvs l r)[i + 8] = r[i])

/-! Refusals (R98 to R104). -/

/-- R99, R100: recording a refusal. -/
def Obligations.RefusalRecordsTheFirstCode : Prop :=
  (errBits .illegalOp = 1 ∧ errBits .rsvdBits = 2 ∧ errBits .badLen = 3 ∧ errBits .noOutput = 4 ∧ errBits .ctrOvf = 5) ∧
  (∀ (s : State) (c : ErrCode), s.err = false → (s.refuse c).err = true ∧ (s.refuse c).errcode = errBits c) ∧
  (∀ (s : State) (c : ErrCode), s.err = true → s.refuse c = s) ∧
  (∀ (s : State) (c : ErrCode), SameBut restoreError s (s.refuse c))

/-- R98, R101: a refused command does nothing but record its one code, the decoder's causes before the state's. -/
def Obligations.RefusedCommandOnlyRecordsItsCode : Prop :=
  ∀ (c : Command) (s : State) (e : ErrCode), refusalOf c.cmd s = some e →
    runCommand c s = .next ((s.accept c).refuse e) ∧
    (e = .illegalOp ↔ 9 ≤ (c.cmd.extractLsb' 0 4).toNat) ∧
    (e = .noOutput ↔ c.cmd = 0x4 ∧ s.outv = false) ∧
    (e = .ctrOvf → (∃ len, decode c.cmd = .cmd (.update len) ∧ 1024 < chunkLen s + len.toNat) ∧ s.chunk.toNat = 2 ^ 64 - 1)

/-- R98: a command that is not refused leaves ERR and ERRCODE alone, unless it is RESET or CLRERR. -/
def Obligations.ExecutedCommandRecordsNothing : Prop :=
  ∀ (c : Command) (s t : State), refusalOf c.cmd s = none → c.cmd ≠ 0x1 → c.cmd ≠ 0x8 → runCommand c s = .next t →
    t.err = s.err ∧ t.errcode = s.errcode

/-- R102: ERR blocks nothing: whatever the error record holds, a command has the same effect on everything else. -/
def Obligations.ErrorRecordBlocksNothing : Prop :=
  ∀ (c : Command) (s : State) (e : Bool) (k : BitVec 3),
    (∀ t, runCommand c s = .next t → ∃ t', runCommand c { s with err := e, errcode := k } = .next t' ∧ SameBut restoreError t t') ∧
    (∀ f, runCommand c s = .fault f → runCommand c { s with err := e, errcode := k } = .fault f)

/-- R104: whether and why a command is refused depends on the command word, OUTV, CHUNK and chunk_len alone. -/
def Obligations.RefusalDependsOnControlAlone : Prop :=
  ∀ (w : Word) (s t : State), s.outv = t.outv → s.chunk = t.chunk → chunkLen s = chunkLen t → refusalOf w s = refusalOf w t

/-! The commands (R64, R65, R82 to R92). -/

/-- R82: NOP writes no register; any other word with its opcode value is refused. -/
def Obligations.NopWritesNothing : Prop :=
  (∀ s : State, exec .nop s = .next s) ∧ OnlyLegalWord 0x0 0x00000000 .nop

/-- R83, R112: RESET is accepted in every state and loads every reset value the spec gives; a refused RESET resets nothing.
STK, OCV, OBLK, OBL and OFLG become unspecified and are not spoken of. That cmd, din, aux, the queue and the position stay as they
are is the model's choice (log entry 3). -/
def Obligations.ResetLoadsTheResetValues : Prop :=
  (∀ s : State, ∃ t, exec .reset s = .next t ∧
    t.cv = IV ∧ t.blk = Vector.replicate 64 0 ∧ t.blen = 0 ∧ t.bcnt = 0 ∧ t.chunk = 0 ∧ t.sp = 0 ∧ t.outv = false ∧ t.octr = 0 ∧
    t.rawcv = IV ∧ t.dout = Vector.replicate 16 0 ∧ t.dvalid = false ∧ t.err = false ∧ t.errcode = 0 ∧
    statusWord t = 0x00000040 ∧ t.queue = s.queue ∧ t.pos = s.pos ∧ t.cmd = s.cmd ∧ t.din = s.din ∧ t.aux = s.aux ∧
    SameObservable { State.reset with queue := s.queue, pos := s.pos, cmd := s.cmd, din := s.din, aux := s.aux } t) ∧
  OnlyLegalWord 0x1 0x00000001 .reset ∧
  (∀ (c : Command) (s : State), c.cmd.extractLsb' 0 4 = 0x1 → c.cmd ≠ 0x1 → runCommand c s = .next ((s.accept c).refuse .rsvdBits))

/-- R84, R85: from every state that meets the invariant, an UPDATE of legal length that does not overflow the chunk counter
completes: the stream grows by LEN bytes, OUTV is cleared, and nothing but the chunk processor, the stack and OUTV changes. -/
def Obligations.UpdateCompletes : Prop :=
  ∀ (len : BlockLen) (s : State), HashInv s → len.toNat ≤ 64 → ¬(s.chunk.toNat = 2 ^ 64 - 1 ∧ 1024 < chunkLen s + len.toNat) →
    ∃ t, exec (.update len) s = .next t ∧ t.outv = false ∧ HashInv t ∧
      1024 * t.chunk.toNat + chunkLen t = 1024 * s.chunk.toNat + chunkLen s + len.toNat ∧
      t = { s.withHashOf t with outv := false }

/-- R84: UPDATE runs its loop byte by byte: LEN = 0 only clears OUTV, and one byte more is one pass more, which closes a full chunk
first and then absorbs the next lane. -/
def Obligations.UpdateAbsorbsLaneByLane : Prop :=
  ∀ s : State, HashInv s →
    exec (.update 0) s = .next { s with outv := false } ∧
    ∀ n : Nat, n < 64 → ¬(s.chunk.toNat = 2 ^ 64 - 1 ∧ 1024 < chunkLen s + (n + 1)) →
      ∃ t v u, exec (.update (BitVec.ofNat 7 n)) s = .next t ∧
        (if chunkLen t = 1024 then closeChunk t = .ok v else v = t) ∧
        absorbByte (s.din.extractLsb' (8 * n) 8) v = .ok u ∧
        exec (.update (BitVec.ofNat 7 (n + 1))) s = .next u

/-- R85: the counter overflow refuses an UPDATE whole, and nothing else about the stream does. -/
def Obligations.UpdateOverflowIsRefusedWhole : Prop :=
  ∀ (len : BlockLen) (s : State), len.toNat ≤ 64 →
    (s.chunk.toNat = 2 ^ 64 - 1 ∧ 1024 < chunkLen s + len.toNat → exec (.update len) s = .next (s.refuse .ctrOvf)) ∧
    (¬(s.chunk.toNat = 2 ^ 64 - 1 ∧ 1024 < chunkLen s + len.toNat) → ∀ t, exec (.update len) s = .next t →
      t.err = s.err ∧ t.errcode = s.errcode ∧ t.outv = false)

/-- R68, R69: AbsorbByte compresses a full buffer, with length 64, counter CHUNK and the start flag, and otherwise only stores the byte. -/
def Obligations.AbsorbByteCompressesOnlyAFullBuffer : Prop :=
  ∀ (b : Byte) (s : State),
    (s.blen = 64 → absorbByte b s = .ok { s with
      cv := cvOf ⟨s.cv, wordsOf 16 s.blk.toList, s.chunk, 64, if s.bcnt = 0 then 0x01 else 0x00⟩
      bcnt := s.bcnt + 1, blk := (Vector.replicate 64 0).set 0 b, blen := 1 }) ∧
    (∀ h : s.blen.toNat < 64, absorbByte b s = .ok { s with blk := s.blk.set s.blen.toNat b, blen := s.blen + 1 })

/-- R78, R81: PushChunkCV merges once for each trailing zero bit of CHUNK + 1, each time with the top entry as the left child, then
pushes the result; the entries below are unchanged, and so is every register but STK and SP. -/
def Obligations.PushMergesOncePerTrailingZero : Prop :=
  ∀ (cv : ChainValue) (s : State) (n : Nat), HashInv s → s.chunk.toNat < 2 ^ 64 - 1 →
    2 ^ n ∣ s.chunk.toNat + 1 → ¬2 ^ (n + 1) ∣ s.chunk.toNat + 1 →
    ∃ t, pushChunkCv cv s = .ok t ∧ n ≤ s.sp.toNat ∧ t.sp.toNat = s.sp.toNat - n + 1 ∧
      t.stk.toList[s.sp.toNat - n]? = some (mergedCv s cv n) ∧
      (∀ j < s.sp.toNat - n, t.stk.toList[j]? = s.stk.toList[j]?) ∧
      t = { s with stk := t.stk, sp := t.sp }

/-- R66, R79: CloseChunk pushes the chaining value of the chunk's output node, advances CHUNK and starts an empty chunk. -/
def Obligations.CloseChunkStartsTheNextChunk : Prop :=
  ∀ s : State, HashInv s → s.chunk.toNat < 2 ^ 64 - 1 →
    ∃ u t, pushChunkCv (cvOf (chunkOutput s)) s = .ok u ∧ closeChunk s = .ok t ∧
      t = { u with chunk := s.chunk + 1, cv := IV, blk := Vector.replicate 64 0, blen := 0, bcnt := 0 }

/-- R87: RootNode folds the stack from the top down, each entry as the left child, and is the chunk's own node when SP = 0. -/
def Obligations.RootNodeFoldsTheStack : Prop :=
  ∀ s : State, s.sp.toNat ≤ 64 →
    rootNode s = .ok ((s.stk.toList.take s.sp.toNat).foldr (fun l n => parentOutput l (cvOf n)) (chunkOutput s))

/-- R88: FINALIZE is legal in every state, latches RootNode with ROOT set, and writes nothing else; the flags are 0x0B, 0x0A or 0x0C. -/
def Obligations.FinalizeLatchesTheRoot : Prop :=
  (∀ s : State, HashInv s → ∃ n t, rootNode s = .ok n ∧ exec .finalize s = .next t ∧
    t.ocv = n.cv ∧ t.oblk = n.m ∧ t.obl = n.bl ∧ t.oflg = n.fl ||| 0x08 ∧ t.octr = 0 ∧ t.outv = true ∧
    SameBut restoreNode s t ∧
    t.oflg = (if s.sp = 0 then (if s.bcnt = 0 then 0x0B else 0x0A) else 0x0C)) ∧
  OnlyLegalWord 0x3 0x00000003 .finalize

/-- R89: whatever commands but UPDATE and RESET run in between, FINALIZE latches the same root. -/
def Obligations.FinalizeIsNotConsuming : Prop :=
  ∀ (cs : List Command) (s t u v : State), (∀ c ∈ cs, leavesStream c.cmd = true) →
    runCommands cs s = .next t → exec .finalize s = .next u → exec .finalize t = .next v →
    v.ocv = u.ocv ∧ v.oblk = u.oblk ∧ v.obl = u.obl ∧ v.oflg = u.oflg ∧ v.octr = u.octr ∧ v.outv = u.outv

/-- R91: SQUEEZE produces the segment at OCTR, advances OCTR modulo 2^64 and sets DVALID; it is refused while OUTV = 0. -/
def Obligations.SqueezeProducesTheNextSegment : Prop :=
  (∀ s : State, s.outv = true → ∃ t, exec .squeeze s = .next t ∧
    t.dout = compress s.ocv s.oblk s.octr s.obl s.oflg ∧ t.octr.toNat = (s.octr.toNat + 1) % 2 ^ 64 ∧ t.dvalid = true ∧
    SameBut restoreOutput s t) ∧
  (∀ s : State, s.outv = false → exec .squeeze s = .next (s.refuse .noOutput)) ∧
  OnlyLegalWord 0x4 0x00000004 .squeeze

/-- R93, R94: after `n + 1` SQUEEZEs DOUT is the segment at the counter `OCTR + n` modulo 2^64 of the latched root node. -/
def Obligations.SqueezesReadTheOutputStream : Prop :=
  ∀ (n : Nat) (s : State), s.outv = true → ∃ t, squeezeTimes (n + 1) s = .next t ∧
    t.dout = compress s.ocv s.oblk (s.octr + BitVec.ofNat 64 n) s.obl s.oflg ∧
    t.octr = s.octr + BitVec.ofNat 64 (n + 1) ∧ t.dvalid = true ∧ SameBut restoreOutput s t ∧
    (∀ p < 64, s.octr = 0 → n < 2 ^ 64 → (bytesOf t.dout)[p]? = some (streamByte s (64 * n + p)))

/-- R92: SEEK sets OCTR to aux in any state and writes nothing else; a FINALIZE overwrites it, and a SEEK to `k` and a SQUEEZE
give the segment that `k` SQUEEZEs pass over. -/
def Obligations.SeekSetsTheOutputCounter : Prop :=
  (∀ s : State, exec .seek s = .next { s with octr := s.aux }) ∧ OnlyLegalWord 0x5 0x00000005 .seek ∧
  (∀ s t : State, exec .finalize s = .next t → t.octr = 0) ∧
  (∀ (k : Nat) (s t u v : State), s.outv = true → s.octr = 0 → s.aux = BitVec.ofNat 64 k → squeezeTimes (k + 1) s = .next t →
    exec .seek s = .next u → exec .squeeze u = .next v → v = t)

/-- R64: LOADCV loads RAWCV from the low 32 lanes, little-endian, and writes nothing else. -/
def Obligations.LoadcvLoadsRawcv : Prop :=
  (∀ s : State, ∃ t, exec .loadcv s = .next t ∧ { t with rawcv := s.rawcv } = s ∧
    ∀ i (h : i < 8), t.rawcv[i] = s.din.extractLsb' (32 * i) 32) ∧
  OnlyLegalWord 0x6 0x00000006 .loadcv

/-- R65: COMPRESS runs the compression function on RAWCV, the whole bus as the block, aux, LEN and any FLG, and writes DOUT and DVALID alone. -/
def Obligations.CompressRunsTheRawFunction : Prop :=
  (∀ (len : BlockLen) (flg : Byte) (s : State), len.toNat ≤ 64 → ∃ t m, exec (.compress len flg) s = .next t ∧
    (∀ i (h : i < 16), m[i] = s.din.extractLsb' (32 * i) 32) ∧
    t.dout = compress s.rawcv m s.aux len (flg.zeroExtend 32) ∧ t.dvalid = true ∧ { t with dout := s.dout, dvalid := s.dvalid } = s) ∧
  LegalWords 0x7 0xFF00F80F .compress

/-- R90: CLRERR clears ERR and ERRCODE and nothing else; a refused CLRERR clears nothing. -/
def Obligations.ClrerrClearsTheRecord : Prop :=
  (∀ s : State, exec .clrerr s = .next { s with err := false, errcode := 0 }) ∧ OnlyLegalWord 0x8 0x00000008 .clrerr ∧
  (∀ (c : Command) (s : State), c.cmd.extractLsb' 0 4 = 0x8 → c.cmd ≠ 0x8 → runCommand c s = .next ((s.accept c).refuse .rsvdBits))

/-- R65, R91: a host that gives COMPRESS the latched root node reads the segment that SQUEEZE would produce. -/
def Obligations.CompressReproducesSqueeze : Prop :=
  ∀ (s t u : State), s.outv = true → s.obl.toNat ≤ 64 → s.oflg.toNat < 256 → s.rawcv = s.ocv → s.din = busOf (bytesOf s.oblk) →
    s.aux = s.octr → exec .squeeze s = .next t → exec (.compress s.obl (s.oflg.truncate 8)) s = .next u → u.dout = t.dout

/-- The "written by" column of spec/10_state.md section 8, with R83: which commands may change each register. -/
def Obligations.EachRegisterHasItsWriters : Prop :=
  ∀ (i : Instr) (s t : State), exec i s = .next t → i ≠ .reset →
    ((∀ len, i ≠ .update len) → t.cv = s.cv ∧ t.blk = s.blk ∧ t.blen = s.blen ∧ t.bcnt = s.bcnt ∧ t.chunk = s.chunk ∧
      t.stk = s.stk ∧ t.sp = s.sp) ∧
    ((∀ len, i ≠ .update len) → i ≠ .finalize → t.outv = s.outv) ∧
    (i ≠ .finalize → t.ocv = s.ocv ∧ t.oblk = s.oblk ∧ t.obl = s.obl ∧ t.oflg = s.oflg) ∧
    (i ≠ .finalize → i ≠ .squeeze → i ≠ .seek → t.octr = s.octr) ∧
    (i ≠ .loadcv → t.rawcv = s.rawcv) ∧
    (i ≠ .squeeze → (∀ len flg, i ≠ .compress len flg) → t.dout = s.dout ∧ t.dvalid = s.dvalid) ∧
    (i = .nop ∨ i = .finalize ∨ i = .seek ∨ i = .loadcv → t.err = s.err ∧ t.errcode = s.errcode) ∧
    (t.cmd = s.cmd ∧ t.din = s.din ∧ t.aux = s.aux ∧ t.queue = s.queue ∧ t.pos = s.pos)

/-! The machine: its step, its invariants, and the stream it hashes (R19, R20, R41, R86, R116). -/

/-- R49, R116: a step takes the next command of the host's sequence, samples its operands, advances the position by one and runs the
decoded command, or records the refusal of the decoder. -/
def Obligations.StepRunsTheDecodedCommand : Prop :=
  ∀ (s : State) (c : Command) (rest : List Command), s.queue = c :: rest →
    (∀ i, decode c.cmd = .cmd i → step s = exec i { s with queue := rest, cmd := c.cmd, din := c.din, aux := c.aux, pos := s.pos + 1 }) ∧
    (∀ e, decode c.cmd = .refuse e →
      step s = .next ({ s with queue := rest, cmd := c.cmd, din := c.din, aux := c.aux, pos := s.pos + 1 }.refuse e))

/-- R10, R29, R41: no command, no step; each step takes one command and moves the position by one; `n` steps run the first `n` commands in order. -/
def Obligations.StepsConsumeTheSequenceInOrder : Prop :=
  (∀ s : State, s.queue = [] → step s = .refused .noCommand) ∧
  (∀ s t : State, step s = .next t → ∃ c, s.queue = c :: t.queue ∧ t.pos = s.pos + 1 ∧ t.cmd = c.cmd ∧ t.din = c.din ∧ t.aux = c.aux) ∧
  (∀ (cs rest : List Command) (s : State), s.queue = cs ++ rest →
    core.run cs.length s = runCommands cs { s with queue := rest })

/-- R11 to R25: the reset state meets the invariant. -/
def Obligations.ResetMeetsTheInvariant : Prop := Inv State.reset

/-- R12, R13, R15, R19, R20, R25: every step keeps the invariant, from every state that meets it. -/
def Obligations.StepKeepsTheInvariant : Prop :=
  ∀ s t : State, Inv s → step s = .next t → Inv t

/-- R18, R19, R98, R102: from a state that meets the invariant, every command the host offers completes: the stack neither underflows nor
overflows and nothing halts. -/
def Obligations.EveryOfferedCommandCompletes : Prop :=
  ∀ (s : State) (c : Command) (rest : List Command), HashInv s → s.queue = c :: rest → ∃ t, step s = .next t

/-- R20, R74: at reset no byte has been absorbed and no root node is latched: OUTV is 0. -/
def Obligations.ResetHasAbsorbedNothing : Prop := Absorbed [] State.reset ∧ State.reset.outv = false ∧ RootLatched [] State.reset

/-- R19, R20, R71 to R74, R86: every step from a state that has absorbed `data` leads to the state that has absorbed what the command adds,
with CV, BLK, BLEN, BCNT, CHUNK, SP, every valid stack entry and a latched root node as functions of the bytes alone. -/
def Obligations.StepFollowsTheStream : Prop :=
  ∀ (data : List Byte) (s t : State) (c : Command) (rest : List Command), s.queue = c :: rest →
    Absorbed data s → RootLatched data s → step s = .next t →
    Absorbed (dataAfter c (started s c rest) data) t ∧ RootLatched (dataAfter c (started s c rest) data) t

/-- R87, R88, R91, R92, R94: after any bytes, FINALIZE and SQUEEZE give segment 0 of the reference hash of those bytes, and FINALIZE,
SEEK to `k` and SQUEEZE give segment `k`; and so do the three commands offered as words, whatever their unused operands hold. -/
def Obligations.FinalizeThenSqueezeGivesTheHash : Prop :=
  ∀ (data : List Byte) (s : State) (k : Counter), Absorbed data s →
    (∃ t u v w, exec .finalize s = .next t ∧ exec .squeeze t = .next u ∧ u.dout = refSegment data 0 ∧
      exec .seek { t with aux := k } = .next v ∧ exec .squeeze v = .next w ∧ w.dout = refSegment data k) ∧
    ∀ (d d' d'' : Bus) (a a'' : Counter), ∃ t,
      runCommands [⟨encode .finalize, d, a⟩, ⟨encode .seek, d', k⟩, ⟨encode .squeeze, d'', a''⟩] s = .next t ∧
        t.dout = refSegment data k

/-- R39, R86: two sequences of UPDATEs whose data concatenate to the same bytes leave the same registers, however the bytes are split
and whatever the ignored lanes and `aux` hold. The bytes stay within the input limit of R85, so that none of the UPDATEs is refused.
An UPDATE of length 0 changes nothing but OUTV. -/
def Obligations.SplitOfTheInputDoesNotMatter : Prop :=
  (∀ s : State, HashInv s → exec (.update 0) s = .next { s with outv := false }) ∧
  ∀ (cs es : List Command) (s : State), HashInv s → (∀ c ∈ cs, IsUpdate c) → (∀ e ∈ es, IsUpdate e) →
    cs.flatMap updateBytes = es.flatMap updateBytes → cs ≠ [] → es ≠ [] →
    1024 * s.chunk.toNat + chunkLen s + (cs.flatMap updateBytes).length ≤ 2 ^ 74 →
    ∃ t u, runCommands cs s = .next t ∧ runCommands es s = .next u ∧
      u = { t with cmd := u.cmd, din := u.din, aux := u.aux, pos := u.pos }

/-- R17, R21, R116: what the spec calls unobservable stays unobservable: two states that agree on all else take steps no host can tell apart. -/
def Obligations.UnobservableRegistersStayHidden : Prop :=
  ∀ s t : State, SameObservable s t → s.ports = t.ports ∧ SameOutcome (step s) (step t)

/-! The clock level (R110 to R120). -/

/-- R111, R113, R120: an edge with `rst_n = 0` loads the reset values, abandons an executing command and accepts nothing, whatever
`cmd_valid` holds. That the next edge with `rst_n = 1` only makes the core ready is the model's choice (log entry 6). -/
def Obligations.ResetEdgeLoadsTheResetValues : Prop :=
  ∀ (k : Clocked) (p : Pins), p.rstN = false →
    ∃ s, edge k p = .next (.inReset s) ∧ acceptedAt k p = none ∧ (Clocked.inReset s).cmdReady = false ∧
      SameObservable { State.reset with queue := s.queue, pos := s.pos, cmd := s.cmd, din := s.din, aux := s.aux } s ∧
      ∀ q : Pins, q.rstN = true → edge (.inReset s) q = .next (.idle s) ∧ (Clocked.idle s).cmdReady = true

/-- R114, R115, R116: a command accepted with latency L completes at the edge L - 1 edges later, with exactly the effect of the model's step;
until then the core is not ready. -/
def Obligations.AcceptedCommandCompletesAfterItsLatency : Prop :=
  ∀ (s t : State) (p : Pins) (ps : List Pins), p.rstN = true → p.cmdValid = true → (∀ q ∈ ps, q.rstN = true) →
    runCommand p.command s = .next t →
    (ps.length + 1 = latency p.cmd s → edges (p :: ps) (.idle s) = .next (.idle t)) ∧
    (ps.length + 1 < latency p.cmd s → ∃ left, edges (p :: ps) (.idle s) = .next (.busy s p.command left))

/-- R40, R118: while a command executes every output port keeps its value and no command is accepted; the ports change only at completion. -/
def Obligations.PortsHoldWhileACommandExecutes : Prop :=
  ∀ (s : State) (c : Command) (left : Nat) (p : Pins), p.rstN = true →
    (Clocked.busy s c left).ports = some s.ports ∧ (Clocked.busy s c left).cmdReady = false ∧
    acceptedAt (.busy s c left) p = none ∧
    (0 < left → edge (.busy s c left) p = .next (.busy s c (left - 1))) ∧
    (∀ t, left = 0 → runCommand c s = .next t → edge (.busy s c left) p = .next (.idle t))

/-- R119: a latency is at least 1 and depends on no data: on the opcode, LEN, BLEN, BCNT, CHUNK, SP and whether the command is refused.
SQUEEZE and COMPRESS take constant times. -/
def Obligations.LatencyDependsOnNoData : Prop :=
  (∀ (w : Word) (s : State), 1 ≤ latency w s) ∧
  (∀ (w w' : Word) (s t : State), opField w = opField w' → lenField w = lenField w' → s.blen = t.blen → s.bcnt = t.bcnt →
    s.chunk = t.chunk → s.sp = t.sp → (refusalOf w s).isSome = (refusalOf w' t).isSome → latency w s = latency w' t) ∧
  (∀ (w w' : Word) (s t : State), opField w = opField w' → (opField w = 0x4 ∨ opField w = 0x7) →
    refusalOf w s = none → refusalOf w' t = none → latency w s = latency w' t)

/-- R40, R41, R116: a run of clock edges without a reset that ends with the core idle is the commands accepted on the way, run one after the
other, and nothing else. -/
def Obligations.ClockedRunIsItsAcceptedCommands : Prop :=
  ∀ (ps : List Pins) (s t : State), (∀ p ∈ ps, p.rstN = true) → edges ps (.idle s) = .next (.idle t) →
    runCommands (acceptedOver ps (.idle s)) s = .next t

/-- R114, R115, R116: no command sticks: an offer kept through a busy time of `left + 1` edges is accepted at the next edge. -/
def Obligations.KeptOfferIsAccepted : Prop :=
  ∀ (s : State) (c : Command) (left : Nat) (p : Pins), HashInv s → p.rstN = true → p.cmdValid = true →
    ∃ t, edges (List.replicate (left + 1) p) (.busy s c left) = .next (.idle t) ∧ acceptedAt (.idle t) p = some p.command

/-- R110: loss of power loses the state, and only a hardware reset restores the core: it loads the reset values.
That a core without power shows no port, is not ready and accepts nothing until then is the model's inference (log entry 12). -/
def Obligations.OnlyResetRestoresALostCore : Prop :=
  ∀ (k : Clocked) (p : Pins),
    (losePower k).ports = none ∧ (losePower k).cmdReady = false ∧ acceptedAt (losePower k) p = none ∧
    (p.rstN = true → edge (losePower k) p = .next (losePower k)) ∧
    (p.rstN = false → ∃ s, edge (losePower k) p = .next (.inReset s) ∧ statusWord s = 0x00000040 ∧
      SameObservable { State.reset with queue := s.queue, pos := s.pos, cmd := s.cmd, din := s.din, aux := s.aux } s)
end

