-- ==== Sys2Proof/Laws/State.lean ====
section
/-! SUPPORT. One lemma per field and named update of State: what the field holds afterwards. -/

namespace Sys2Proof.Machine

variable (s : State)

/-! Sampling the operands and advancing the position. -/

@[simp] theorem State.accept_cv (c : Command) : (s.accept c).cv = s.cv := rfl
@[simp] theorem State.accept_blk (c : Command) : (s.accept c).blk = s.blk := rfl
@[simp] theorem State.accept_blen (c : Command) : (s.accept c).blen = s.blen := rfl
@[simp] theorem State.accept_bcnt (c : Command) : (s.accept c).bcnt = s.bcnt := rfl
@[simp] theorem State.accept_chunk (c : Command) : (s.accept c).chunk = s.chunk := rfl
@[simp] theorem State.accept_stk (c : Command) : (s.accept c).stk = s.stk := rfl
@[simp] theorem State.accept_sp (c : Command) : (s.accept c).sp = s.sp := rfl
@[simp] theorem State.accept_outv (c : Command) : (s.accept c).outv = s.outv := rfl
@[simp] theorem State.accept_ocv (c : Command) : (s.accept c).ocv = s.ocv := rfl
@[simp] theorem State.accept_oblk (c : Command) : (s.accept c).oblk = s.oblk := rfl
@[simp] theorem State.accept_obl (c : Command) : (s.accept c).obl = s.obl := rfl
@[simp] theorem State.accept_oflg (c : Command) : (s.accept c).oflg = s.oflg := rfl
@[simp] theorem State.accept_octr (c : Command) : (s.accept c).octr = s.octr := rfl
@[simp] theorem State.accept_rawcv (c : Command) : (s.accept c).rawcv = s.rawcv := rfl
@[simp] theorem State.accept_dout (c : Command) : (s.accept c).dout = s.dout := rfl
@[simp] theorem State.accept_dvalid (c : Command) : (s.accept c).dvalid = s.dvalid := rfl
@[simp] theorem State.accept_err (c : Command) : (s.accept c).err = s.err := rfl
@[simp] theorem State.accept_errcode (c : Command) : (s.accept c).errcode = s.errcode := rfl
@[simp] theorem State.accept_cmd (c : Command) : (s.accept c).cmd = c.cmd := rfl
@[simp] theorem State.accept_din (c : Command) : (s.accept c).din = c.din := rfl
@[simp] theorem State.accept_aux (c : Command) : (s.accept c).aux = c.aux := rfl
@[simp] theorem State.accept_queue (c : Command) : (s.accept c).queue = s.queue := rfl
@[simp] theorem State.accept_pos (c : Command) : (s.accept c).pos = s.pos + 1 := rfl
@[simp] theorem State.accept_freeCtr (c : Command) : (s.accept c).freeCtr = s.freeCtr := rfl

/-! Offering one more command. -/

@[simp] theorem State.offerNext_cv (c : Command) : (s.offerNext c).cv = s.cv := rfl
@[simp] theorem State.offerNext_blk (c : Command) : (s.offerNext c).blk = s.blk := rfl
@[simp] theorem State.offerNext_blen (c : Command) : (s.offerNext c).blen = s.blen := rfl
@[simp] theorem State.offerNext_bcnt (c : Command) : (s.offerNext c).bcnt = s.bcnt := rfl
@[simp] theorem State.offerNext_chunk (c : Command) : (s.offerNext c).chunk = s.chunk := rfl
@[simp] theorem State.offerNext_stk (c : Command) : (s.offerNext c).stk = s.stk := rfl
@[simp] theorem State.offerNext_sp (c : Command) : (s.offerNext c).sp = s.sp := rfl
@[simp] theorem State.offerNext_outv (c : Command) : (s.offerNext c).outv = s.outv := rfl
@[simp] theorem State.offerNext_ocv (c : Command) : (s.offerNext c).ocv = s.ocv := rfl
@[simp] theorem State.offerNext_oblk (c : Command) : (s.offerNext c).oblk = s.oblk := rfl
@[simp] theorem State.offerNext_obl (c : Command) : (s.offerNext c).obl = s.obl := rfl
@[simp] theorem State.offerNext_oflg (c : Command) : (s.offerNext c).oflg = s.oflg := rfl
@[simp] theorem State.offerNext_octr (c : Command) : (s.offerNext c).octr = s.octr := rfl
@[simp] theorem State.offerNext_rawcv (c : Command) : (s.offerNext c).rawcv = s.rawcv := rfl
@[simp] theorem State.offerNext_dout (c : Command) : (s.offerNext c).dout = s.dout := rfl
@[simp] theorem State.offerNext_dvalid (c : Command) : (s.offerNext c).dvalid = s.dvalid := rfl
@[simp] theorem State.offerNext_err (c : Command) : (s.offerNext c).err = s.err := rfl
@[simp] theorem State.offerNext_errcode (c : Command) : (s.offerNext c).errcode = s.errcode := rfl
@[simp] theorem State.offerNext_cmd (c : Command) : (s.offerNext c).cmd = s.cmd := rfl
@[simp] theorem State.offerNext_din (c : Command) : (s.offerNext c).din = s.din := rfl
@[simp] theorem State.offerNext_aux (c : Command) : (s.offerNext c).aux = s.aux := rfl
@[simp] theorem State.offerNext_queue (c : Command) : (s.offerNext c).queue = c :: s.queue := rfl
@[simp] theorem State.offerNext_pos (c : Command) : (s.offerNext c).pos = s.pos := rfl
@[simp] theorem State.offerNext_freeCtr (c : Command) : (s.offerNext c).freeCtr = s.freeCtr := rfl

/-! Clearing the error record. -/

@[simp] theorem State.clearError_cv : (s.clearError).cv = s.cv := rfl
@[simp] theorem State.clearError_blk : (s.clearError).blk = s.blk := rfl
@[simp] theorem State.clearError_blen : (s.clearError).blen = s.blen := rfl
@[simp] theorem State.clearError_bcnt : (s.clearError).bcnt = s.bcnt := rfl
@[simp] theorem State.clearError_chunk : (s.clearError).chunk = s.chunk := rfl
@[simp] theorem State.clearError_stk : (s.clearError).stk = s.stk := rfl
@[simp] theorem State.clearError_sp : (s.clearError).sp = s.sp := rfl
@[simp] theorem State.clearError_outv : (s.clearError).outv = s.outv := rfl
@[simp] theorem State.clearError_ocv : (s.clearError).ocv = s.ocv := rfl
@[simp] theorem State.clearError_oblk : (s.clearError).oblk = s.oblk := rfl
@[simp] theorem State.clearError_obl : (s.clearError).obl = s.obl := rfl
@[simp] theorem State.clearError_oflg : (s.clearError).oflg = s.oflg := rfl
@[simp] theorem State.clearError_octr : (s.clearError).octr = s.octr := rfl
@[simp] theorem State.clearError_rawcv : (s.clearError).rawcv = s.rawcv := rfl
@[simp] theorem State.clearError_dout : (s.clearError).dout = s.dout := rfl
@[simp] theorem State.clearError_dvalid : (s.clearError).dvalid = s.dvalid := rfl
@[simp] theorem State.clearError_err : (s.clearError).err = false := rfl
@[simp] theorem State.clearError_errcode : (s.clearError).errcode = 0 := rfl
@[simp] theorem State.clearError_cmd : (s.clearError).cmd = s.cmd := rfl
@[simp] theorem State.clearError_din : (s.clearError).din = s.din := rfl
@[simp] theorem State.clearError_aux : (s.clearError).aux = s.aux := rfl
@[simp] theorem State.clearError_queue : (s.clearError).queue = s.queue := rfl
@[simp] theorem State.clearError_pos : (s.clearError).pos = s.pos := rfl
@[simp] theorem State.clearError_freeCtr : (s.clearError).freeCtr = s.freeCtr := rfl

/-! ChunkInit. -/

@[simp] theorem chunkInit_cv : (chunkInit s).cv = IV := rfl
@[simp] theorem chunkInit_blk : (chunkInit s).blk = zeroBlk := rfl
@[simp] theorem chunkInit_blen : (chunkInit s).blen = 0 := rfl
@[simp] theorem chunkInit_bcnt : (chunkInit s).bcnt = 0 := rfl
@[simp] theorem chunkInit_chunk : (chunkInit s).chunk = s.chunk := rfl
@[simp] theorem chunkInit_stk : (chunkInit s).stk = s.stk := rfl
@[simp] theorem chunkInit_sp : (chunkInit s).sp = s.sp := rfl
@[simp] theorem chunkInit_outv : (chunkInit s).outv = s.outv := rfl
@[simp] theorem chunkInit_ocv : (chunkInit s).ocv = s.ocv := rfl
@[simp] theorem chunkInit_oblk : (chunkInit s).oblk = s.oblk := rfl
@[simp] theorem chunkInit_obl : (chunkInit s).obl = s.obl := rfl
@[simp] theorem chunkInit_oflg : (chunkInit s).oflg = s.oflg := rfl
@[simp] theorem chunkInit_octr : (chunkInit s).octr = s.octr := rfl
@[simp] theorem chunkInit_rawcv : (chunkInit s).rawcv = s.rawcv := rfl
@[simp] theorem chunkInit_dout : (chunkInit s).dout = s.dout := rfl
@[simp] theorem chunkInit_dvalid : (chunkInit s).dvalid = s.dvalid := rfl
@[simp] theorem chunkInit_err : (chunkInit s).err = s.err := rfl
@[simp] theorem chunkInit_errcode : (chunkInit s).errcode = s.errcode := rfl
@[simp] theorem chunkInit_cmd : (chunkInit s).cmd = s.cmd := rfl
@[simp] theorem chunkInit_din : (chunkInit s).din = s.din := rfl
@[simp] theorem chunkInit_aux : (chunkInit s).aux = s.aux := rfl
@[simp] theorem chunkInit_queue : (chunkInit s).queue = s.queue := rfl
@[simp] theorem chunkInit_pos : (chunkInit s).pos = s.pos := rfl
@[simp] theorem chunkInit_freeCtr : (chunkInit s).freeCtr = s.freeCtr := rfl

/-! The free values of the unspecified registers. -/

@[simp] theorem State.freeRegs_cv : (s.freeRegs).cv = s.cv := rfl
@[simp] theorem State.freeRegs_blk : (s.freeRegs).blk = s.blk := rfl
@[simp] theorem State.freeRegs_blen : (s.freeRegs).blen = s.blen := rfl
@[simp] theorem State.freeRegs_bcnt : (s.freeRegs).bcnt = s.bcnt := rfl
@[simp] theorem State.freeRegs_chunk : (s.freeRegs).chunk = s.chunk := rfl
@[simp] theorem State.freeRegs_stk : (s.freeRegs).stk = Config.freeStack s.freeCtr := rfl
@[simp] theorem State.freeRegs_sp : (s.freeRegs).sp = s.sp := rfl
@[simp] theorem State.freeRegs_outv : (s.freeRegs).outv = s.outv := rfl
@[simp] theorem State.freeRegs_ocv : (s.freeRegs).ocv = Config.freeNodeCv s.freeCtr := rfl
@[simp] theorem State.freeRegs_oblk : (s.freeRegs).oblk = Config.freeNodeBlock s.freeCtr := rfl
@[simp] theorem State.freeRegs_obl : (s.freeRegs).obl = Config.freeNodeLen s.freeCtr := rfl
@[simp] theorem State.freeRegs_oflg : (s.freeRegs).oflg = Config.freeNodeFlags s.freeCtr := rfl
@[simp] theorem State.freeRegs_octr : (s.freeRegs).octr = s.octr := rfl
@[simp] theorem State.freeRegs_rawcv : (s.freeRegs).rawcv = s.rawcv := rfl
@[simp] theorem State.freeRegs_dout : (s.freeRegs).dout = s.dout := rfl
@[simp] theorem State.freeRegs_dvalid : (s.freeRegs).dvalid = s.dvalid := rfl
@[simp] theorem State.freeRegs_err : (s.freeRegs).err = s.err := rfl
@[simp] theorem State.freeRegs_errcode : (s.freeRegs).errcode = s.errcode := rfl
@[simp] theorem State.freeRegs_cmd : (s.freeRegs).cmd = s.cmd := rfl
@[simp] theorem State.freeRegs_din : (s.freeRegs).din = s.din := rfl
@[simp] theorem State.freeRegs_aux : (s.freeRegs).aux = s.aux := rfl
@[simp] theorem State.freeRegs_queue : (s.freeRegs).queue = s.queue := rfl
@[simp] theorem State.freeRegs_pos : (s.freeRegs).pos = s.pos := rfl
@[simp] theorem State.freeRegs_freeCtr : (s.freeRegs).freeCtr = s.freeCtr + 1 := rfl

/-! Loading the reset values. -/

@[simp] theorem State.loadReset_cv : (s.loadReset).cv = IV := rfl
@[simp] theorem State.loadReset_blk : (s.loadReset).blk = zeroBlk := rfl
@[simp] theorem State.loadReset_blen : (s.loadReset).blen = 0 := rfl
@[simp] theorem State.loadReset_bcnt : (s.loadReset).bcnt = 0 := rfl
@[simp] theorem State.loadReset_chunk : (s.loadReset).chunk = 0 := rfl
@[simp] theorem State.loadReset_stk : (s.loadReset).stk = Config.freeStack s.freeCtr := rfl
@[simp] theorem State.loadReset_sp : (s.loadReset).sp = 0 := rfl
@[simp] theorem State.loadReset_outv : (s.loadReset).outv = false := rfl
@[simp] theorem State.loadReset_ocv : (s.loadReset).ocv = Config.freeNodeCv s.freeCtr := rfl
@[simp] theorem State.loadReset_oblk : (s.loadReset).oblk = Config.freeNodeBlock s.freeCtr := rfl
@[simp] theorem State.loadReset_obl : (s.loadReset).obl = Config.freeNodeLen s.freeCtr := rfl
@[simp] theorem State.loadReset_oflg : (s.loadReset).oflg = Config.freeNodeFlags s.freeCtr := rfl
@[simp] theorem State.loadReset_octr : (s.loadReset).octr = 0 := rfl
@[simp] theorem State.loadReset_rawcv : (s.loadReset).rawcv = IV := rfl
@[simp] theorem State.loadReset_dout : (s.loadReset).dout = zeroBlock := rfl
@[simp] theorem State.loadReset_dvalid : (s.loadReset).dvalid = false := rfl
@[simp] theorem State.loadReset_err : (s.loadReset).err = false := rfl
@[simp] theorem State.loadReset_errcode : (s.loadReset).errcode = 0 := rfl
@[simp] theorem State.loadReset_cmd : (s.loadReset).cmd = s.cmd := rfl
@[simp] theorem State.loadReset_din : (s.loadReset).din = s.din := rfl
@[simp] theorem State.loadReset_aux : (s.loadReset).aux = s.aux := rfl
@[simp] theorem State.loadReset_queue : (s.loadReset).queue = s.queue := rfl
@[simp] theorem State.loadReset_pos : (s.loadReset).pos = s.pos := rfl
@[simp] theorem State.loadReset_freeCtr : (s.loadReset).freeCtr = s.freeCtr + 1 := rfl

/-! Latching the root node. -/

@[simp] theorem latchRoot_cv (n : Node) : (latchRoot s n).cv = s.cv := rfl
@[simp] theorem latchRoot_blk (n : Node) : (latchRoot s n).blk = s.blk := rfl
@[simp] theorem latchRoot_blen (n : Node) : (latchRoot s n).blen = s.blen := rfl
@[simp] theorem latchRoot_bcnt (n : Node) : (latchRoot s n).bcnt = s.bcnt := rfl
@[simp] theorem latchRoot_chunk (n : Node) : (latchRoot s n).chunk = s.chunk := rfl
@[simp] theorem latchRoot_stk (n : Node) : (latchRoot s n).stk = s.stk := rfl
@[simp] theorem latchRoot_sp (n : Node) : (latchRoot s n).sp = s.sp := rfl
@[simp] theorem latchRoot_outv (n : Node) : (latchRoot s n).outv = true := rfl
@[simp] theorem latchRoot_ocv (n : Node) : (latchRoot s n).ocv = n.cv := rfl
@[simp] theorem latchRoot_oblk (n : Node) : (latchRoot s n).oblk = n.m := rfl
@[simp] theorem latchRoot_obl (n : Node) : (latchRoot s n).obl = n.bl := rfl
@[simp] theorem latchRoot_oflg (n : Node) : (latchRoot s n).oflg = n.fl ||| flagRoot := rfl
@[simp] theorem latchRoot_octr (n : Node) : (latchRoot s n).octr = 0 := rfl
@[simp] theorem latchRoot_rawcv (n : Node) : (latchRoot s n).rawcv = s.rawcv := rfl
@[simp] theorem latchRoot_dout (n : Node) : (latchRoot s n).dout = s.dout := rfl
@[simp] theorem latchRoot_dvalid (n : Node) : (latchRoot s n).dvalid = s.dvalid := rfl
@[simp] theorem latchRoot_err (n : Node) : (latchRoot s n).err = s.err := rfl
@[simp] theorem latchRoot_errcode (n : Node) : (latchRoot s n).errcode = s.errcode := rfl
@[simp] theorem latchRoot_cmd (n : Node) : (latchRoot s n).cmd = s.cmd := rfl
@[simp] theorem latchRoot_din (n : Node) : (latchRoot s n).din = s.din := rfl
@[simp] theorem latchRoot_aux (n : Node) : (latchRoot s n).aux = s.aux := rfl
@[simp] theorem latchRoot_queue (n : Node) : (latchRoot s n).queue = s.queue := rfl
@[simp] theorem latchRoot_pos (n : Node) : (latchRoot s n).pos = s.pos := rfl
@[simp] theorem latchRoot_freeCtr (n : Node) : (latchRoot s n).freeCtr = s.freeCtr := rfl

/-! Compressing the buffered block. -/

@[simp] theorem compressBuffered_cv : (compressBuffered s).cv = cvOf ⟨s.cv, blkWords s, s.chunk, 64, startFlag s⟩ := rfl
@[simp] theorem compressBuffered_blk : (compressBuffered s).blk = zeroBlk := rfl
@[simp] theorem compressBuffered_blen : (compressBuffered s).blen = 0 := rfl
@[simp] theorem compressBuffered_bcnt : (compressBuffered s).bcnt = s.bcnt + 1 := rfl
@[simp] theorem compressBuffered_chunk : (compressBuffered s).chunk = s.chunk := rfl
@[simp] theorem compressBuffered_stk : (compressBuffered s).stk = s.stk := rfl
@[simp] theorem compressBuffered_sp : (compressBuffered s).sp = s.sp := rfl
@[simp] theorem compressBuffered_outv : (compressBuffered s).outv = s.outv := rfl
@[simp] theorem compressBuffered_ocv : (compressBuffered s).ocv = s.ocv := rfl
@[simp] theorem compressBuffered_oblk : (compressBuffered s).oblk = s.oblk := rfl
@[simp] theorem compressBuffered_obl : (compressBuffered s).obl = s.obl := rfl
@[simp] theorem compressBuffered_oflg : (compressBuffered s).oflg = s.oflg := rfl
@[simp] theorem compressBuffered_octr : (compressBuffered s).octr = s.octr := rfl
@[simp] theorem compressBuffered_rawcv : (compressBuffered s).rawcv = s.rawcv := rfl
@[simp] theorem compressBuffered_dout : (compressBuffered s).dout = s.dout := rfl
@[simp] theorem compressBuffered_dvalid : (compressBuffered s).dvalid = s.dvalid := rfl
@[simp] theorem compressBuffered_err : (compressBuffered s).err = s.err := rfl
@[simp] theorem compressBuffered_errcode : (compressBuffered s).errcode = s.errcode := rfl
@[simp] theorem compressBuffered_cmd : (compressBuffered s).cmd = s.cmd := rfl
@[simp] theorem compressBuffered_din : (compressBuffered s).din = s.din := rfl
@[simp] theorem compressBuffered_aux : (compressBuffered s).aux = s.aux := rfl
@[simp] theorem compressBuffered_queue : (compressBuffered s).queue = s.queue := rfl
@[simp] theorem compressBuffered_pos : (compressBuffered s).pos = s.pos := rfl
@[simp] theorem compressBuffered_freeCtr : (compressBuffered s).freeCtr = s.freeCtr := rfl

/-! Recording a refusal: only ERR and ERRCODE can change (R98, R100). -/

@[simp] theorem State.refuse_cv (c : ErrCode) : (s.refuse c).cv = s.cv := by cases h : s.err <;> simp [State.refuse, h]
@[simp] theorem State.refuse_blk (c : ErrCode) : (s.refuse c).blk = s.blk := by cases h : s.err <;> simp [State.refuse, h]
@[simp] theorem State.refuse_blen (c : ErrCode) : (s.refuse c).blen = s.blen := by cases h : s.err <;> simp [State.refuse, h]
@[simp] theorem State.refuse_bcnt (c : ErrCode) : (s.refuse c).bcnt = s.bcnt := by cases h : s.err <;> simp [State.refuse, h]
@[simp] theorem State.refuse_chunk (c : ErrCode) : (s.refuse c).chunk = s.chunk := by cases h : s.err <;> simp [State.refuse, h]
@[simp] theorem State.refuse_stk (c : ErrCode) : (s.refuse c).stk = s.stk := by cases h : s.err <;> simp [State.refuse, h]
@[simp] theorem State.refuse_sp (c : ErrCode) : (s.refuse c).sp = s.sp := by cases h : s.err <;> simp [State.refuse, h]
@[simp] theorem State.refuse_outv (c : ErrCode) : (s.refuse c).outv = s.outv := by cases h : s.err <;> simp [State.refuse, h]
@[simp] theorem State.refuse_ocv (c : ErrCode) : (s.refuse c).ocv = s.ocv := by cases h : s.err <;> simp [State.refuse, h]
@[simp] theorem State.refuse_oblk (c : ErrCode) : (s.refuse c).oblk = s.oblk := by cases h : s.err <;> simp [State.refuse, h]
@[simp] theorem State.refuse_obl (c : ErrCode) : (s.refuse c).obl = s.obl := by cases h : s.err <;> simp [State.refuse, h]
@[simp] theorem State.refuse_oflg (c : ErrCode) : (s.refuse c).oflg = s.oflg := by cases h : s.err <;> simp [State.refuse, h]
@[simp] theorem State.refuse_octr (c : ErrCode) : (s.refuse c).octr = s.octr := by cases h : s.err <;> simp [State.refuse, h]
@[simp] theorem State.refuse_rawcv (c : ErrCode) : (s.refuse c).rawcv = s.rawcv := by cases h : s.err <;> simp [State.refuse, h]
@[simp] theorem State.refuse_dout (c : ErrCode) : (s.refuse c).dout = s.dout := by cases h : s.err <;> simp [State.refuse, h]
@[simp] theorem State.refuse_dvalid (c : ErrCode) : (s.refuse c).dvalid = s.dvalid := by cases h : s.err <;> simp [State.refuse, h]
@[simp] theorem State.refuse_cmd (c : ErrCode) : (s.refuse c).cmd = s.cmd := by cases h : s.err <;> simp [State.refuse, h]
@[simp] theorem State.refuse_din (c : ErrCode) : (s.refuse c).din = s.din := by cases h : s.err <;> simp [State.refuse, h]
@[simp] theorem State.refuse_aux (c : ErrCode) : (s.refuse c).aux = s.aux := by cases h : s.err <;> simp [State.refuse, h]
@[simp] theorem State.refuse_queue (c : ErrCode) : (s.refuse c).queue = s.queue := by cases h : s.err <;> simp [State.refuse, h]
@[simp] theorem State.refuse_pos (c : ErrCode) : (s.refuse c).pos = s.pos := by cases h : s.err <;> simp [State.refuse, h]
@[simp] theorem State.refuse_freeCtr (c : ErrCode) : (s.refuse c).freeCtr = s.freeCtr := by cases h : s.err <;> simp [State.refuse, h]
@[simp] theorem State.refuse_err (c : ErrCode) : (s.refuse c).err = true := by cases h : s.err <;> simp [State.refuse, h]
theorem State.refuse_first (c : ErrCode) (h : s.err = false) : s.refuse c = { s with err := true, errcode := errBits c } := by
  simp [State.refuse, h]
theorem State.refuse_again (c : ErrCode) (h : s.err = true) : s.refuse c = s := by simp [State.refuse, h]

end Sys2Proof.Machine
end

