-- ==== Sys2Proof/Laws/Ops.lean ====
section
/-! SUPPORT. What the register accesses of Machine/Ops.lean can answer. -/

namespace Sys2Proof.Machine

theorem readStk_lt {s : State} {j : Nat} (h : j < 64) : readStk s j = .ok s.stk[j] := by simp [readStk, h]

theorem readStk_ge {s : State} {j : Nat} (h : 64 ≤ j) : readStk s j = .error .stackIndex := by
  simp [readStk, Nat.not_lt.mpr h]

/-- A read that answers names an entry that exists. -/
theorem readStk_ok {s : State} {j : Nat} {v : ChainValue} (h : readStk s j = .ok v) : ∃ hj : j < 64, v = s.stk[j] := by
  unfold readStk at h
  split at h
  · next hj => exact ⟨hj, by simpa using h.symm⟩
  · cases h

theorem pushStk_lt {s : State} (cv : ChainValue) (h : s.sp.toNat < 64) :
    pushStk s cv = .ok { s with stk := s.stk.set s.sp.toNat cv, sp := s.sp + 1 } := by simp [pushStk, h]

/-- A push that answers stored its value in the first free entry and raised SP. -/
theorem pushStk_ok {s t : State} {cv : ChainValue} (h : pushStk s cv = .ok t) :
    ∃ hs : s.sp.toNat < 64, t = { s with stk := s.stk.set s.sp.toNat cv, sp := s.sp + 1 } := by
  unfold pushStk at h
  split at h
  · next hs => exact ⟨hs, by simpa using h.symm⟩
  · cases h

theorem appendByte_lt {s : State} (b : Byte) (h : s.blen.toNat < 64) :
    appendByte s b = .ok { s with blk := s.blk.set s.blen.toNat b, blen := s.blen + 1 } := by simp [appendByte, h]

/-- An append that answers stored the byte after those that are there and raised BLEN. -/
theorem appendByte_ok {s t : State} {b : Byte} (h : appendByte s b = .ok t) :
    ∃ hs : s.blen.toNat < 64, t = { s with blk := s.blk.set s.blen.toNat b, blen := s.blen + 1 } := by
  unfold appendByte at h
  split at h
  · next hs => exact ⟨hs, by simpa using h.symm⟩
  · cases h

end Sys2Proof.Machine
end

