-- ==== Sys2Proof/Laws/Peaks.lean ====
section
/-! SUPPORT. The one bits of a chunk count as a list built from the lowest level up, which the merge loop follows. -/

namespace Sys2Proof.Machine

/-- The one bits of `m` from the highest down, each with the first chunk of its subtree, for a count in units of `2^k` chunks. -/
def peaksUp : Nat → Nat → Nat → List (Nat × Nat)
  | 0, _, _ => []
  | n + 1, k, m => peaksUp n (k + 1) (m / 2) ++ (if m % 2 = 1 then [(k, (m - 1) * 2 ^ k)] else [])

theorem peaksUp_odd (n k m : Nat) (h : m % 2 = 1) :
    peaksUp (n + 1) k m = peaksUp n (k + 1) (m / 2) ++ [(k, (m - 1) * 2 ^ k)] := by simp [peaksUp, h]

theorem peaksUp_even (n k m : Nat) (h : m % 2 = 0) : peaksUp (n + 1) k m = peaksUp n (k + 1) (m / 2) := by
  simp [peaksUp, h]

theorem peaksUp_zero (n k : Nat) : peaksUp n k 0 = [] := by
  induction n generalizing k with
  | zero => rfl
  | succ n ih => simp [peaksUp, ih]

theorem peaksUp_length_le (n k m : Nat) : (peaksUp n k m).length ≤ n := by
  induction n generalizing k m with
  | zero => simp [peaksUp]
  | succ n ih =>
    have := ih (k + 1) (m / 2)
    by_cases h : m % 2 = 1 <;> simp [peaksUp, h] <;> omega

/-- The bits of a count at the levels `k` to `k + n - 1`, in the order `peaksUp` lists them. -/
theorem peaksUp_eq_filterMap (n k c : Nat) :
    peaksUp n k (c / 2 ^ k) = (List.range' k n).reverse.filterMap fun j =>
      if c.testBit j then some (j, c / 2 ^ (j + 1) * 2 ^ (j + 1)) else none := by
  induction n generalizing k with
  | zero => rfl
  | succ n ih =>
    have hdiv : c / 2 ^ k / 2 = c / 2 ^ (k + 1) := by rw [Nat.div_div_eq_div_mul, pow_succ]
    rw [peaksUp, hdiv, ih (k + 1), List.range'_succ]
    simp only [List.reverse_cons, List.filterMap_append, List.filterMap_cons, List.filterMap_nil]
    congr 1
    have ht : c.testBit k = decide (c / 2 ^ k % 2 = 1) := by rw [Nat.testBit_eq_decide_div_mod_eq]
    by_cases h : c / 2 ^ k % 2 = 1
    · have h2 : c / 2 ^ k - 1 = c / 2 ^ (k + 1) * 2 := by rw [← hdiv]; omega
      simp [ht, h, h2, pow_succ', Nat.mul_assoc]
    · simp [ht, h]

theorem refPeaks_eq_peaksUp (c : Nat) : refPeaks c = peaksUp 64 0 c := by
  have h := peaksUp_eq_filterMap 64 0 c
  simp only [pow_zero, Nat.div_one] at h
  rw [h, refPeaks, List.range_eq_range']

theorem onesCount_eq_length (c : Nat) : onesCount c = (refPeaks c).length := by
  unfold onesCount refPeaks
  generalize (List.range 64) = l
  induction l with
  | nil => rfl
  | cons a l ih =>
    simp only [List.filter_cons, List.reverse_cons, List.filterMap_append, List.length_append, ← ih]
    by_cases h : c.testBit a <;> simp [h]

theorem onesCount_le (c : Nat) : onesCount c ≤ 64 := by
  rw [onesCount_eq_length, refPeaks_eq_peaksUp]; exact peaksUp_length_le 64 0 c

theorem onesCount_zero : onesCount 0 = 0 := by
  rw [onesCount_eq_length, refPeaks_eq_peaksUp, peaksUp_zero]; rfl

/-- A count below the largest one has a zero bit. -/
theorem peaksUp_length_lt (n k m : Nat) (h : m + 1 < 2 ^ n) : (peaksUp n k m).length < n := by
  induction n generalizing k m with
  | zero => simp at h
  | succ n ih =>
    rw [pow_succ] at h
    rcases Nat.mod_two_eq_zero_or_one m with h0 | h1
    · have := peaksUp_length_le n (k + 1) (m / 2)
      rw [peaksUp_even _ _ _ h0]; omega
    · have := ih (k + 1) (m / 2) (by omega)
      rw [peaksUp_odd _ _ _ h1]; simp; omega

end Sys2Proof.Machine
end

