-- ==== Sys2Proof/Laws/Tree.lean ====
section
/-! SUPPORT. What the merge loop, PushChunkCV and CloseChunk do (R78 to R81). -/

namespace Sys2Proof.Machine

/-- The bound on the passes of the merge loop does not matter once it exceeds the bits of `total` (R78: the loop ends because total >= 1). -/
theorem mergeLoop_fuel (n f g total : Nat) (cv : ChainValue) (s : State) (hf : n < f) (hg : n < g) (hpos : 0 < total)
    (hle : total ≤ 2 ^ n) : mergeLoop f total cv s = mergeLoop g total cv s := by
  induction n generalizing f g total cv s with
  | zero =>
    obtain rfl : total = 1 := by simp at hle; omega
    obtain ⟨f, rfl⟩ : ∃ a, f = a + 1 := ⟨f - 1, by omega⟩
    obtain ⟨g, rfl⟩ : ∃ a, g = a + 1 := ⟨g - 1, by omega⟩
    simp [mergeLoop]
  | succ n ih =>
    obtain ⟨f, rfl⟩ : ∃ a, f = a + 1 := ⟨f - 1, by omega⟩
    obtain ⟨g, rfl⟩ : ∃ a, g = a + 1 := ⟨g - 1, by omega⟩
    simp only [mergeLoop]
    split
    · cases readStk s (s.sp - 1).toNat with
      | error e => rfl
      | ok l => exact ih f g _ _ _ (by omega) (by omega) (by omega) (by rw [pow_succ] at hle; omega)
    · rfl

theorem sp_sub_one {x : BitVec 7} (h : 0 < x.toNat) : (x - 1).toNat = x.toNat - 1 := by bv_omega

theorem sp_add_one {x : BitVec 7} (h : x.toNat < 127) : (x + 1).toNat = x.toNat + 1 := by bv_omega

/-- One merge takes the top of the stack as the left child of the value being pushed. -/
theorem mergeLoop_even {fuel total : Nat} {cv : ChainValue} {s : State} (h0 : total % 2 = 0) (hsp : 0 < s.sp.toNat) (hle : s.sp.toNat ≤ 64) :
    mergeLoop (fuel + 1) total cv s =
      mergeLoop fuel (total / 2) (parentCv (s.stk[s.sp.toNat - 1]'(by omega)) cv) { s with sp := s.sp - 1 } := by
  simp only [mergeLoop, h0, if_true, sp_sub_one hsp]
  rw [readStk_lt (by omega)]

theorem mergeLoop_odd {fuel total : Nat} {cv : ChainValue} {s : State} (h1 : total % 2 = 1) :
    mergeLoop (fuel + 1) total cv s = .ok (cv, s) := by simp [mergeLoop, h1]

/-- The merge loop at level `k`, from a stack of the one bits of `total - 1`: it answers, changes SP alone, and leaves the one bits of
`total` but for the value it returns.
If the stack and `cv` hold the chaining values of their subtrees, so do the stack and the value afterwards (R19, R80). -/
theorem mergeLoop_spec (n k total fuel : Nat) (cv : ChainValue) (s : State) (hn : n ≤ 64) (hf : n ≤ fuel) (hpos : 0 < total)
    (hlt : total < 2 ^ n) (hsp : s.sp.toNat = (peaksUp n k (total - 1)).length) :
    ∃ cv' sp', mergeLoop fuel total cv s = .ok (cv', { s with sp := sp' }) ∧ sp'.toNat + 1 = (peaksUp n k total).length ∧
      ∀ data, cv = refSubtree data k ((total - 1) * 2 ^ k) →
        s.stk.toList.take s.sp.toNat = (peaksUp n k (total - 1)).map (fun p => refSubtree data p.1 p.2) →
        s.stk.toList.take sp'.toNat ++ [cv'] = (peaksUp n k total).map (fun p => refSubtree data p.1 p.2) := by
  induction n generalizing k total fuel cv s with
  | zero => simp at hlt; omega
  | succ n ih =>
    obtain ⟨fuel, rfl⟩ : ∃ a, fuel = a + 1 := ⟨fuel - 1, by omega⟩
    rw [pow_succ] at hlt
    rcases Nat.mod_two_eq_zero_or_one total with h0 | h1
    · have hodd : (total - 1) % 2 = 1 := by omega
      have hhalf : (total - 1) / 2 = total / 2 - 1 := by omega
      rw [peaksUp_odd _ _ _ hodd, hhalf] at hsp
      simp only [List.length_append, List.length_singleton] at hsp
      have hlen := peaksUp_length_le n (k + 1) (total / 2 - 1)
      rw [mergeLoop_even h0 (by omega) (by omega)]
      obtain ⟨cv', sp', hok, hsp', hval⟩ := ih (k + 1) (total / 2) fuel (parentCv (s.stk[s.sp.toNat - 1]'(by omega)) cv)
        { s with sp := s.sp - 1 } (by omega) (by omega) (by omega) (by omega)
        (by show (s.sp - 1).toNat = _; rw [sp_sub_one (by omega)]; omega)
      refine ⟨cv', sp', by simpa using hok, by rw [peaksUp_even _ _ _ h0]; exact hsp', ?_⟩
      intro data hcv hstk
      rw [peaksUp_even _ _ _ h0]
      rw [peaksUp_odd _ _ _ hodd, hhalf, List.map_append, hsp] at hstk
      have hlenl : s.stk.toList.length = 64 := by simp
      rw [List.take_succ_eq_append_getElem (by omega)] at hstk
      obtain ⟨hfront, hlast⟩ := List.append_inj' hstk (by simp)
      have htop : s.stk[s.sp.toNat - 1]'(by omega) = refSubtree data k ((total - 1 - 1) * 2 ^ k) := by
        have h2 : s.stk.toList[(peaksUp n (k + 1) (total / 2 - 1)).length]'(by omega) = refSubtree data k ((total - 1 - 1) * 2 ^ k) := by
          simpa using hlast
        rw [← h2]
        simp only [Vector.getElem_toList]
        congr 1
        omega
      refine hval data ?_ ?_
      · rw [htop, hcv, refSubtree]
        have e1 : (total / 2 - 1) * 2 ^ (k + 1) = (total - 1 - 1) * 2 ^ k := by
          rw [pow_succ', ← Nat.mul_assoc]; congr 1; omega
        have e2 : (total - 1 - 1) * 2 ^ k + 2 ^ k = (total - 1) * 2 ^ k := by
          rw [← Nat.succ_mul]; congr 1; omega
        rw [e1, e2]
      · rw [show ({ s with sp := s.sp - 1 } : State).sp.toNat = (peaksUp n (k + 1) (total / 2 - 1)).length from by
          show (s.sp - 1).toNat = _; rw [sp_sub_one (by omega)]; omega]
        exact hfront
    · have heven : (total - 1) % 2 = 0 := by omega
      have hhalf : (total - 1) / 2 = total / 2 := by omega
      refine ⟨cv, s.sp, mergeLoop_odd h1, ?_, ?_⟩
      · rw [hsp, peaksUp_even _ _ _ heven, hhalf, peaksUp_odd _ _ _ h1]; simp
      · intro data hcv hstk
        rw [hstk, peaksUp_even _ _ _ heven, hhalf, peaksUp_odd _ _ _ h1, List.map_append, hcv]
        simp

/-- PushChunkCV from a stack of the one bits of CHUNK (R19, R78): it answers, changes STK and SP alone, and leaves a stack of the one
bits of CHUNK + 1, whose entries are the chaining values of their subtrees if those before it were. -/
theorem pushChunkCv_spec (cv : ChainValue) (s : State) (hmax : s.chunk.toNat + 1 < 2 ^ 64)
    (hsp : s.sp.toNat = (refPeaks s.chunk.toNat).length) :
    ∃ stk' sp', pushChunkCv cv s = .ok { s with stk := stk', sp := sp' } ∧ sp'.toNat = (refPeaks (s.chunk.toNat + 1)).length ∧
      ∀ data, cv = refSubtree data 0 s.chunk.toNat →
        s.stk.toList.take s.sp.toNat = refStack data s.chunk.toNat →
        stk'.toList.take sp'.toNat = refStack data (s.chunk.toNat + 1) := by
  rw [refPeaks_eq_peaksUp] at hsp
  obtain ⟨cv', sp', hok, hsp', hval⟩ := mergeLoop_spec 64 0 (s.chunk.toNat + 1) 65 cv s (by omega) (by omega) (by omega) hmax
    (by simpa using hsp)
  have hle := peaksUp_length_le 64 0 (s.chunk.toNat + 1)
  have hlt : sp'.toNat < 64 := by omega
  refine ⟨s.stk.set sp'.toNat cv' hlt, sp' + 1, ?_, ?_, ?_⟩
  · simp only [pushChunkCv, hok]
    rw [pushStk_lt _ (by exact hlt)]
  · rw [sp_add_one (by omega), refPeaks_eq_peaksUp, hsp']
  · intro data hcv hstk
    have := hval data (by simpa using hcv) (by simpa [refStack, refPeaks_eq_peaksUp] using hstk)
    rw [refStack, refPeaks_eq_peaksUp, ← this, sp_add_one (by omega), Vector.toList_set]
    have hl : s.stk.toList.length = 64 := by simp
    rw [List.take_succ_eq_append_getElem (by simp [hlt])]
    simp [List.take_set_of_le]

/-- CloseChunk (R79) where its push answers: the next chunk starts empty with the next index. -/
theorem closeChunk_ok {s t : State} (h : closeChunk s = .ok t) :
    ∃ u, pushChunkCv (cvOf (chunkOutput s)) s = .ok u ∧ t = chunkInit { u with chunk := u.chunk + 1 } := by
  unfold closeChunk at h
  split at h
  · cases h
  · next u hu => exact ⟨u, hu, by simpa using h.symm⟩

end Sys2Proof.Machine
end

