-- ==== Sys2Proof/Laws/Chunk.lean ====
section
/-! SUPPORT. What absorbing one byte and many bytes does (R68, R79, R84), and the fold of RootNode (R87). -/

namespace Sys2Proof.Machine

theorem blen_eq_64 {x : BlockLen} : x = 64 ↔ x.toNat = 64 := by
  constructor
  · rintro rfl; rfl
  · intro h; exact BitVec.eq_of_toNat_eq (by simpa using h)

theorem blen_add_one {x : BlockLen} (h : x.toNat < 127) : (x + 1).toNat = x.toNat + 1 := sp_add_one h

theorem bcnt_add_one {x : BitVec 4} (h : x.toNat < 15) : (x + 1).toNat = x.toNat + 1 := by bv_omega

theorem chunk_add_one {x : Counter} (h : x.toNat + 1 < 2 ^ 64) : (x + 1).toNat = x.toNat + 1 := by bv_omega

theorem chunk_lt_max {x : Counter} (h : x ≠ maxChunk) : x.toNat + 1 < 2 ^ 64 := by
  have := x.isLt
  have : x.toNat ≠ 2 ^ 64 - 1 := fun e => h (BitVec.eq_of_toNat_eq (by simpa [maxChunk] using e))
  omega

theorem chunkLen_def (s : State) : chunkLen s = 64 * s.bcnt.toNat + s.blen.toNat := rfl

/-- A full chunk has 15 blocks compressed and the sixteenth full in the buffer. -/
theorem full_chunk {s : State} (hb : s.blen.toNat ≤ 64) (h : chunkLen s = CHUNK_LEN) : s.bcnt.toNat = 15 ∧ s.blen.toNat = 64 := by
  have := s.bcnt.isLt
  rw [chunkLen_def, CHUNK_LEN] at h
  omega

/-- AbsorbByte on a full buffer compresses it and starts the next block with the byte. -/
theorem absorbByte_full {s : State} (b : Byte) (h : s.blen.toNat = 64) :
    absorbByte b s = .ok { compressBuffered s with blk := zeroBlk.set 0 b, blen := 1 } := by
  rw [absorbByte, if_pos (blen_eq_64.mpr h), appendByte_lt _ (by simp)]
  rfl

/-- AbsorbByte on a buffer with room stores the byte behind the others. -/
theorem absorbByte_room {s : State} (b : Byte) (h : s.blen.toNat < 64) :
    absorbByte b s = .ok { s with blk := s.blk.set s.blen.toNat b, blen := s.blen + 1 } := by
  have hne : ¬ s.blen = 64 := fun e => by have := blen_eq_64.mp e; omega
  rw [absorbByte, if_neg hne, appendByte_lt b h]

/-- AbsorbByte answers exactly when BLEN is legal (R13). -/
theorem absorbByte_ok {s t : State} {b : Byte} (h : absorbByte b s = .ok t) : s.blen.toNat ≤ 64 := by
  by_contra hc
  have hne : ¬ s.blen = 64 := fun e => by have := blen_eq_64.mp e; omega
  rw [absorbByte, if_neg hne] at h
  obtain ⟨hs, -⟩ := appendByte_ok h
  omega

/-- AbsorbByte changes registers of the chunk processor alone. -/
theorem absorbByte_frame {s t : State} {b : Byte} (h : absorbByte b s = .ok t) : t = s.withHashOf t := by
  have hb := absorbByte_ok h
  rcases Nat.lt_or_ge s.blen.toNat 64 with hlt | hge
  · rw [absorbByte_room b hlt] at h; cases h; rfl
  · rw [absorbByte_full b (by omega)] at h; cases h; rfl

theorem mergeLoop_frame {fuel total : Nat} {cv cv' : ChainValue} {s t : State} (h : mergeLoop fuel total cv s = .ok (cv', t)) :
    ∃ sp', t = { s with sp := sp' } := by
  induction fuel generalizing total cv s with
  | zero => simp only [mergeLoop] at h; cases h; exact ⟨_, rfl⟩
  | succ fuel ih =>
    simp only [mergeLoop] at h
    split at h
    · cases hr : readStk s (s.sp - 1).toNat with
      | error e => rw [hr] at h; cases h
      | ok l =>
        rw [hr] at h
        obtain ⟨sp', rfl⟩ := ih h
        exact ⟨sp', rfl⟩
    · cases h; exact ⟨_, rfl⟩

/-- CloseChunk changes registers of the chunk processor and the stack alone. -/
theorem closeChunk_frame {s t : State} (h : closeChunk s = .ok t) : t = s.withHashOf t := by
  obtain ⟨u, hu, rfl⟩ := closeChunk_ok h
  unfold pushChunkCv at hu
  split at hu
  · cases hu
  · next cv' v hv =>
    obtain ⟨_, rfl⟩ := pushStk_ok hu
    obtain ⟨sp', rfl⟩ := mergeLoop_frame hv
    rfl

theorem withHashOf_trans {s t u : State} (h : t = s.withHashOf t) (h' : u = t.withHashOf u) : u = s.withHashOf u := by
  rw [h', h]
  rfl

theorem absorb_frame {s t : State} {b : Byte} (h : absorb b s = .ok t) : t = s.withHashOf t := by
  unfold absorb at h
  split at h
  · split at h
    · cases h
    · next u hu => exact withHashOf_trans (closeChunk_frame hu) (absorbByte_frame h)
  · exact absorbByte_frame h

/-- UPDATE's loop changes registers of the chunk processor and the stack alone. -/
theorem absorbAll_frame {bs : List Byte} {s t : State} (h : absorbAll bs s = .ok t) : t = s.withHashOf t := by
  induction bs generalizing s with
  | nil => cases h; rfl
  | cons b bs ih =>
    simp only [absorbAll] at h
    split at h
    · cases h
    · next u hu => exact withHashOf_trans (absorb_frame hu) (ih h)

/-- UPDATE's loop over two byte strings in turn is its loop over their concatenation (R86). -/
theorem absorbAll_append (xs ys : List Byte) (s : State) :
    absorbAll (xs ++ ys) s = match absorbAll xs s with
      | .error f => .error f
      | .ok t => absorbAll ys t := by
  induction xs generalizing s with
  | nil => rfl
  | cons b xs ih =>
    simp only [List.cons_append, absorbAll]
    cases absorb b s with
    | error e => rfl
    | ok u => exact ih u

/-- How far one byte moves the stream: the next chunk's first byte, or one more byte of the current chunk. -/
theorem absorb_position {s t : State} {b : Byte} (hinv : HashInv s) (hmax : chunkLen s = CHUNK_LEN → s.chunk ≠ maxChunk)
    (h : absorb b s = .ok t) :
    t.blen.toNat ≤ 64 ∧ 0 < t.blen.toNat ∧
    t.chunk.toNat = (if chunkLen s = CHUNK_LEN then s.chunk.toNat + 1 else s.chunk.toNat) ∧
    chunkLen t = (if chunkLen s = CHUNK_LEN then 1 else chunkLen s + 1) := by
  unfold absorb at h
  split at h
  · next hfull =>
    split at h
    · cases h
    · next u hu =>
      obtain ⟨v, hv, rfl⟩ := closeChunk_ok hu
      obtain ⟨stk', sp', hp, -, -⟩ := pushChunkCv_spec (cvOf (chunkOutput s)) s (chunk_lt_max (hmax hfull))
        (by rw [hinv.sp_ones, onesCount_eq_length])
      rw [hp] at hv; cases hv
      rw [absorbByte_room b (by simp)] at h
      cases h
      simp only [hfull, if_true]
      exact ⟨by simp, by simp, chunk_add_one (chunk_lt_max (hmax hfull)), by simp [chunkLen_def]⟩
  · next hn =>
    simp only [hn, if_false]
    rcases Nat.lt_or_ge s.blen.toNat 64 with hlt | hge
    · rw [absorbByte_room b hlt] at h; cases h
      have h1 : (s.blen + 1).toNat = s.blen.toNat + 1 := blen_add_one (by omega)
      exact ⟨by show (s.blen + 1).toNat ≤ 64; omega, by show 0 < (s.blen + 1).toNat; omega, rfl,
        by rw [chunkLen_def, chunkLen_def]; show 64 * s.bcnt.toNat + (s.blen + 1).toNat = _; omega⟩
    · have h64 : s.blen.toNat = 64 := le_antisymm hinv.blen_le hge
      rw [absorbByte_full b h64] at h; cases h
      have := s.bcnt.isLt
      have hlt15 : s.bcnt.toNat < 15 := by
        rw [chunkLen_def, CHUNK_LEN] at hn; omega
      refine ⟨by simp, by simp, rfl, ?_⟩
      rw [chunkLen_def, chunkLen_def]
      show 64 * (s.bcnt + 1).toNat + 1 = _
      rw [bcnt_add_one hlt15]; omega

theorem hashInv_of_room {s : State} (hinv : HashInv s) (b : Byte) (h : s.blen.toNat < 64) :
    HashInv { s with blk := s.blk.set s.blen.toNat b, blen := s.blen + 1 } := by
  have h1 : (s.blen + 1).toNat = s.blen.toNat + 1 := blen_add_one (by omega)
  refine ⟨by show (s.blen + 1).toNat ≤ 64; omega, ?_, ?_, hinv.sp_ones⟩
  · intro i hi hle
    have hle' : s.blen.toNat + 1 ≤ i := by rw [← h1]; exact hle
    rw [Vector.getElem_set_ne _ _ (by omega)]
    exact hinv.blk_zero i hi (by omega)
  · intro h0
    have : (s.blen + 1).toNat = 0 := by rw [show s.blen + 1 = 0 from h0]; rfl
    omega

theorem hashInv_zero_set (s : State) (b : Byte) (hblk : s.blk = zeroBlk.set 0 b) (hblen : s.blen = 1)
    (hsp : s.sp.toNat = onesCount s.chunk.toNat) : HashInv s := by
  refine ⟨by rw [hblen]; decide, ?_, ?_, hsp⟩
  · intro i hi hle
    have : 1 ≤ i := by simpa [hblen] using hle
    rw [hblk, Vector.getElem_set_ne _ _ (by omega)]
    simp [zeroBlk]
  · intro h0; rw [hblen] at h0; exact absurd h0 (by decide)

/-- One byte is always absorbed where the chunk index has room, and the invariant of the hash registers is kept. -/
theorem absorb_inv {s : State} (b : Byte) (hinv : HashInv s) (hmax : chunkLen s = CHUNK_LEN → s.chunk ≠ maxChunk) :
    ∃ t, absorb b s = .ok t ∧ HashInv t := by
  by_cases hfull : chunkLen s = CHUNK_LEN
  · have hlt := chunk_lt_max (hmax hfull)
    obtain ⟨stk', sp', hp, hsp, -⟩ := pushChunkCv_spec (cvOf (chunkOutput s)) s hlt
      (by rw [hinv.sp_ones, onesCount_eq_length])
    simp only [absorb, hfull, if_true, closeChunk, hp]
    rw [absorbByte_room b (by simp)]
    refine ⟨_, rfl, hashInv_zero_set _ b rfl rfl ?_⟩
    show sp'.toNat = onesCount (s.chunk + 1).toNat
    rw [hsp, onesCount_eq_length, chunk_add_one hlt]
  · simp only [absorb, hfull, if_false]
    rcases Nat.lt_or_ge s.blen.toNat 64 with hlt | hge
    · rw [absorbByte_room b hlt]
      exact ⟨_, rfl, hashInv_of_room hinv b hlt⟩
    · rw [absorbByte_full b (le_antisymm hinv.blen_le hge)]
      exact ⟨_, rfl, hashInv_zero_set _ b rfl rfl hinv.sp_ones⟩

/-- UPDATE's loop answers and keeps the invariant where the chunk index has room for its bytes (R84, R85). -/
theorem absorbAll_inv (bs : List Byte) {s : State} (hinv : HashInv s)
    (hroom : CHUNK_LEN * s.chunk.toNat + chunkLen s + bs.length ≤ 2 ^ 74) : ∃ t, absorbAll bs s = .ok t ∧ HashInv t := by
  induction bs generalizing s with
  | nil => exact ⟨s, rfl, hinv⟩
  | cons b bs ih =>
    simp only [List.length_cons] at hroom
    have hmax : chunkLen s = CHUNK_LEN → s.chunk ≠ maxChunk := by
      intro hl hc
      have hm : s.chunk.toNat = 2 ^ 64 - 1 := by rw [hc]; simp [maxChunk]
      rw [hl, hm, CHUNK_LEN] at hroom
      omega
    obtain ⟨u, hu, hui⟩ := absorb_inv b hinv hmax
    obtain ⟨-, -, hchunk, hlen⟩ := absorb_position hinv hmax hu
    simp only [absorbAll, hu]
    refine ih hui ?_
    by_cases hfull : chunkLen s = CHUNK_LEN <;> simp only [hfull, if_true, if_false] at hlen hchunk <;>
      rw [hlen, hchunk] <;> simp only [CHUNK_LEN] at * <;> omega

/-- The fold of RootNode over the valid stack entries (R87). -/
theorem foldStack_eq (s : State) (j : Nat) (n : Node) (hj : j ≤ 64) :
    foldStack s j n = .ok ((s.stk.toList.take j).foldr (fun l n => parentOutput l (cvOf n)) n) := by
  induction j generalizing n with
  | zero => rfl
  | succ j ih =>
    rw [foldStack, readStk_lt (by omega)]
    simp only []
    rw [ih _ (by omega), List.take_succ_eq_append_getElem (by simp; omega)]
    simp

/-- RootNode answers where SP is legal (R18). -/
theorem rootNode_eq (s : State) (h : s.sp.toNat ≤ 64) :
    rootNode s = .ok ((s.stk.toList.take s.sp.toNat).foldr (fun l n => parentOutput l (cvOf n)) (chunkOutput s)) :=
  foldStack_eq s _ _ h

/-- RootNode reads registers of the chunk processor and the stack alone. -/
theorem rootNode_withHashOf (s t : State) : rootNode (s.withHashOf t) = rootNode t := by
  have h : ∀ j n, foldStack (s.withHashOf t) j n = foldStack t j n := by
    intro j
    induction j with
    | zero => intro n; rfl
    | succ j ih => intro n; simp only [foldStack]; rw [show readStk (s.withHashOf t) j = readStk t j from rfl]; cases readStk t j <;> simp [ih]
  exact h _ _

end Sys2Proof.Machine
end

