-- ==== Sys2Proof/Laws/Agree.lean ====
section
/-! SUPPORT. UPDATE's loop and RootNode read no register but those of the chunk processor and the stack: from states that agree on
those they answer alike (R17, R86, R104). -/

namespace Sys2Proof.Machine

/-- `s` and `t` agree on the hash registers: on the stack entries below SP, and on all of them if `A` holds. -/
structure HashAgree (A : Prop) (s t : State) : Prop where
  cv : s.cv = t.cv
  blk : s.blk = t.blk
  blen : s.blen = t.blen
  bcnt : s.bcnt = t.bcnt
  chunk : s.chunk = t.chunk
  sp : s.sp = t.sp
  stk : ∀ j (h : j < 64), A ∨ j < s.sp.toNat → s.stk[j] = t.stk[j]

/-- Both stop for the same reason, or both answer with related values. -/
def ExceptRel {α : Type} (R : α → α → Prop) : Except Fault α → Except Fault α → Prop
  | .ok a, .ok b => R a b
  | .error f, .error g => f = g
  | .ok _, .error _ => False
  | .error _, .ok _ => False

theorem readStk_agree {A : Prop} {s t : State} (h : HashAgree A s t) (j : Nat) (hj : j < s.sp.toNat ∨ 64 ≤ j) : readStk s j = readStk t j := by
  unfold readStk
  by_cases hlt : j < 64
  · rw [dif_pos hlt, dif_pos hlt, h.stk j hlt (.inr (by omega))]
  · rw [dif_neg hlt, dif_neg hlt]

theorem sp_pred (x : BitVec 7) : (x - 1).toNat < x.toNat ∨ 64 ≤ (x - 1).toNat := by
  revert x; decide

theorem mergeLoop_agree {A : Prop} (fuel total : Nat) (cv : ChainValue) {s t : State} (h : HashAgree A s t) :
    ExceptRel (fun x y => x.1 = y.1 ∧ HashAgree A x.2 y.2) (mergeLoop fuel total cv s) (mergeLoop fuel total cv t) := by
  induction fuel generalizing total cv s t with
  | zero => exact ⟨rfl, h⟩
  | succ fuel ih =>
    simp only [mergeLoop]
    split
    · rw [← h.sp, ← readStk_agree h _ (sp_pred s.sp)]
      cases hr : readStk s (s.sp - 1).toNat with
      | error f => rfl
      | ok l =>
        refine ih _ _ ⟨h.cv, h.blk, h.blen, h.bcnt, h.chunk, rfl, ?_⟩
        intro j hj hA
        refine h.stk j hj (hA.imp_right fun hlt => ?_)
        obtain ⟨h64, -⟩ := readStk_ok hr
        have hlt' : j < (s.sp - 1).toNat := hlt
        rcases sp_pred s.sp with h1 | h1 <;> omega
    · exact ⟨rfl, h⟩

theorem pushStk_agree {A : Prop} (cv : ChainValue) {s t : State} (h : HashAgree A s t) :
    ExceptRel (HashAgree A) (pushStk s cv) (pushStk t cv) := by
  unfold pushStk
  by_cases hlt : s.sp.toNat < 64
  · rw [dif_pos hlt, dif_pos (h.sp ▸ hlt)]
    refine ⟨h.cv, h.blk, h.blen, h.bcnt, h.chunk, by show s.sp + 1 = t.sp + 1; rw [h.sp], ?_⟩
    intro j hj hA
    simp only [← h.sp, Vector.getElem_set]
    split
    · rfl
    · next hne =>
      refine h.stk j hj (hA.imp_right fun hl => ?_)
      have : (s.sp + 1).toNat = s.sp.toNat + 1 := sp_add_one (by omega)
      have hl' : j < (s.sp + 1).toNat := hl
      omega
  · rw [dif_neg hlt, dif_neg (h.sp ▸ hlt)]
    rfl

theorem pushChunkCv_agree {A : Prop} (cv : ChainValue) {s t : State} (h : HashAgree A s t) :
    ExceptRel (HashAgree A) (pushChunkCv cv s) (pushChunkCv cv t) := by
  unfold pushChunkCv
  rw [← h.chunk]
  have := mergeLoop_agree 65 (s.chunk.toNat + 1) cv h
  revert this
  cases mergeLoop 65 (s.chunk.toNat + 1) cv s <;> cases mergeLoop 65 (s.chunk.toNat + 1) cv t
  · exact id
  · exact False.elim
  · exact False.elim
  · next x y =>
    rintro ⟨h1, h2⟩
    simp only [h1]
    exact pushStk_agree _ h2

theorem chunkOutput_agree {A : Prop} {s t : State} (h : HashAgree A s t) : chunkOutput s = chunkOutput t := by
  simp only [chunkOutput, blkWords, startFlag, h.cv, h.blk, h.blen, h.bcnt, h.chunk]

theorem closeChunk_agree {A : Prop} {s t : State} (h : HashAgree A s t) : ExceptRel (HashAgree A) (closeChunk s) (closeChunk t) := by
  unfold closeChunk
  rw [← chunkOutput_agree h]
  have := pushChunkCv_agree (cvOf (chunkOutput s)) h
  revert this
  cases pushChunkCv (cvOf (chunkOutput s)) s <;> cases pushChunkCv (cvOf (chunkOutput s)) t
  · exact id
  · exact False.elim
  · exact False.elim
  · next x y =>
    intro h
    exact ⟨rfl, rfl, rfl, rfl, by show x.chunk + 1 = y.chunk + 1; rw [h.chunk], h.sp, h.stk⟩

theorem absorbByte_agree {A : Prop} (b : Byte) {s t : State} (h : HashAgree A s t) :
    ExceptRel (HashAgree A) (absorbByte b s) (absorbByte b t) := by
  by_cases h64 : s.blen.toNat = 64
  · rw [absorbByte_full b h64, absorbByte_full b (h.blen ▸ h64)]
    refine ⟨?_, rfl, rfl, ?_, h.chunk, h.sp, h.stk⟩
    · simp only [compressBuffered, blkWords, startFlag, h.cv, h.blk, h.chunk, h.bcnt]
    · show s.bcnt + 1 = t.bcnt + 1; rw [h.bcnt]
  by_cases hlt : s.blen.toNat < 64
  · rw [absorbByte_room b hlt, absorbByte_room b (h.blen ▸ hlt)]
    exact ⟨h.cv, by simp only [h.blk, h.blen], by show s.blen + 1 = t.blen + 1; rw [h.blen], h.bcnt, h.chunk, h.sp, h.stk⟩
  · have e : ∀ {u : State}, 64 < u.blen.toNat → absorbByte b u = .error .blockIndex := by
      intro u hu
      rw [absorbByte, if_neg (fun e => by have := blen_eq_64.mp e; omega), appendByte, dif_neg (by omega)]
    rw [e (by omega), e (by rw [← h.blen]; omega)]
    rfl

theorem absorb_agree {A : Prop} (b : Byte) {s t : State} (h : HashAgree A s t) :
    ExceptRel (HashAgree A) (absorb b s) (absorb b t) := by
  unfold absorb
  have hl : chunkLen s = chunkLen t := by simp only [chunkLen, h.bcnt, h.blen]
  rw [← hl]
  split
  · have := closeChunk_agree h
    revert this
    cases closeChunk s <;> cases closeChunk t
    · exact id
    · exact False.elim
    · exact False.elim
    · exact fun h => absorbByte_agree b h
  · exact absorbByte_agree b h

/-- UPDATE's loop reads no register but those of the hash. -/
theorem absorbAll_agree {A : Prop} (bs : List Byte) {s t : State} (h : HashAgree A s t) :
    ExceptRel (HashAgree A) (absorbAll bs s) (absorbAll bs t) := by
  induction bs generalizing s t with
  | nil => exact h
  | cons b bs ih =>
    simp only [absorbAll]
    have := absorb_agree b h
    revert this
    cases absorb b s <;> cases absorb b t
    · exact id
    · exact False.elim
    · exact False.elim
    · exact fun h => ih h

/-- RootNode reads no register but those of the hash, and no stack entry at or above SP. -/
theorem rootNode_agree {A : Prop} {s t : State} (h : HashAgree A s t) : rootNode s = rootNode t := by
  have key : ∀ j n, j ≤ s.sp.toNat → foldStack s j n = foldStack t j n := by
    intro j
    induction j with
    | zero => intro n _; rfl
    | succ j ih =>
      intro n hj
      simp only [foldStack, ← readStk_agree h j (.inl (by omega))]
      cases readStk s j with
      | error f => rfl
      | ok l => exact ih _ (by omega)
  rw [rootNode, rootNode, ← h.sp, ← chunkOutput_agree h, key _ _ (Nat.le_refl _)]

theorem HashAgree.eq {s t : State} (h : HashAgree True s t) : ∀ u : State, u.withHashOf s = u.withHashOf t := by
  intro u
  have : s.stk = t.stk := Vector.ext fun j hj => h.stk j hj (.inl trivial)
  simp only [State.withHashOf, h.cv, h.blk, h.blen, h.bcnt, h.chunk, h.sp, this]

theorem HashAgree.refl (A : Prop) (s : State) : HashAgree A s s := ⟨rfl, rfl, rfl, rfl, rfl, rfl, fun _ _ _ => rfl⟩

theorem HashAgree.trans {s t u : State} (h : HashAgree True s t) (h' : HashAgree True t u) : HashAgree True s u :=
  ⟨h.cv.trans h'.cv, h.blk.trans h'.blk, h.blen.trans h'.blen, h.bcnt.trans h'.bcnt, h.chunk.trans h'.chunk, h.sp.trans h'.sp,
   fun j hj _ => (h.stk j hj (.inl trivial)).trans (h'.stk j hj (.inl trivial))⟩

/-- UPDATE's loop carries every register outside the hash along. -/
theorem absorbAll_lift (bs : List Byte) (u x : State) : absorbAll bs (u.withHashOf x) = match absorbAll bs x with
    | .error f => .error f
    | .ok y => .ok (u.withHashOf y) := by
  have hr := absorbAll_agree (A := True) bs (s := x) (t := u.withHashOf x) ⟨rfl, rfl, rfl, rfl, rfl, rfl, fun _ _ _ => rfl⟩
  cases h1 : absorbAll bs x <;> cases h2 : absorbAll bs (u.withHashOf x) <;> rw [h1, h2] at hr
  · cases hr; rfl
  · exact hr.elim
  · exact hr.elim
  · next y z =>
    show Except.ok z = Except.ok (u.withHashOf y)
    rw [absorbAll_frame h2, hr.eq]
    rfl

/-- A loop operation carries OUTV along. -/
theorem withOutv_of_agree (f : State → Except Fault State) (ha : ∀ {s t : State}, HashAgree True s t → ExceptRel (HashAgree True) (f s) (f t))
    (hf : ∀ {s t : State}, f s = .ok t → t = s.withHashOf t) (b : Bool) {x y : State} (h : f x = .ok y) :
    f { x with outv := b } = .ok { y with outv := b } := by
  have hr := ha (s := x) (t := { x with outv := b }) ⟨rfl, rfl, rfl, rfl, rfl, rfl, fun _ _ _ => rfl⟩
  rw [h] at hr
  cases hz : f { x with outv := b } with
  | error e => rw [hz] at hr; exact hr.elim
  | ok z =>
    rw [hz] at hr
    congr 1
    rw [hf hz, hf h, ← hr.eq]
    rfl

end Sys2Proof.Machine
end

