-- ==== Sys2Proof/Laws/Clock.lean ====
section
/-! SUPPORT. Edges under reset and edges while a command executes (R111, R115). -/

namespace Sys2Proof.Machine

theorem edge_reset (k : Clocked) (p : Pins) (h : p.rstN = false) : edge k p = .next (.inReset k.state.loadReset) := by simp [edge, h]

/-- A busy core counts its remaining edges down and completes at the last (R115). -/
theorem edges_busy (ps : List Pins) (s : State) (c : Command) (left : Nat) (h : ∀ p ∈ ps, p.rstN = true) :
    (∀ m, left = ps.length + m → edges ps (.busy s c left) = .next (.busy s c m)) ∧
    (∀ t, left + 1 = ps.length → runCommand c s = .next t → edges ps (.busy s c left) = .next (.idle t)) := by
  induction ps generalizing left with
  | nil => exact ⟨fun m hm => by simp at hm; subst hm; rfl, fun t ht => by simp at ht⟩
  | cons p ps ih =>
    have hp := h p (by simp)
    have hps : ∀ p ∈ ps, p.rstN = true := fun q hq => h q (by simp [hq])
    constructor
    · intro m hm
      obtain ⟨l, rfl⟩ : ∃ l, left = l + 1 := ⟨left - 1, by simp at hm; omega⟩
      simp only [edges, edge, hp, if_true]
      exact (ih l hps).1 m (by simp at hm; omega)
    · intro t ht hr
      cases left with
      | zero =>
        have : ps = [] := List.length_eq_zero_iff.mp (by simpa using ht.symm)
        subst this
        simp [edges, edge, hp, complete, hr]
      | succ l =>
        simp only [edges, edge, hp, if_true]
        exact (ih l hps).2 t (by simpa using ht) hr

end Sys2Proof.Machine
end

