-- ==== Sys2Proof/Laws/Compression.lean ====
section
/-! SUPPORT. The rotation, the quarter-round G word by word, and the message permutation (R54 to R56). -/

namespace Sys2Proof.Machine

theorem rotr_eq (x : Word) (n : Nat) (h : n < 32) : rotr x n = x.rotateRight n := by
  rw [BitVec.rotateRight_def, Nat.mod_eq_of_lt h, rotr]

theorem block_set_self (s : Block) (a : Fin 16) (x : Word) : (s.set a x)[a] = x := by simp

theorem block_set_other (s : Block) (a i : Fin 16) (x : Word) (h : i ≠ a) : (s.set a x)[i] = s[i] := by
  have : a.val ≠ i.val := fun e => h (Fin.ext e.symm)
  simp [Vector.getElem_set_ne, this]

theorem block_ext (u v : Block) (he : ∀ i : Fin 16, u[i] = v[i]) : u = v := Vector.ext fun i hi => he ⟨i, hi⟩

/-- What G leaves in each word: the four it mixes as R56 computes them, every other as it was. -/
theorem mixG_spec (s : Block) (a b c d : Fin 16) (mx my : Word) (h : [a, b, c, d].Nodup) :
    let a1 := s[a] + s[b] + mx
    let d1 := (s[d] ^^^ a1).rotateRight 16
    let c1 := s[c] + d1
    let b1 := (s[b] ^^^ c1).rotateRight 12
    let a2 := a1 + b1 + my
    let d2 := (d1 ^^^ a2).rotateRight 8
    let c2 := c1 + d2
    let b2 := (b1 ^^^ c2).rotateRight 7
    let r := mixG s a b c d mx my
    r[a] = a2 ∧ r[b] = b2 ∧ r[c] = c2 ∧ r[d] = d2 ∧ ∀ i : Fin 16, i ∉ [a, b, c, d] → r[i] = s[i] := by
  have hab : a ≠ b := by simp at h; tauto
  have hac : a ≠ c := by simp at h; tauto
  have had : a ≠ d := by simp at h; tauto
  have hbc : b ≠ c := by simp at h; tauto
  have hbd : b ≠ d := by simp at h; tauto
  have hcd : c ≠ d := by simp at h; tauto
  intro a1 d1 c1 b1 a2 d2 c2 b2 r
  have hr : r = mixG s a b c d mx my := rfl
  clear_value r
  unfold mixG at hr
  extract_lets s1 s2 s3 s4 s5 s6 s7 at hr
  have e1 : s1[a] = a1 := block_set_self ..
  have f1 : ∀ i ≠ a, s1[i] = s[i] := fun i h => block_set_other _ _ _ _ h
  have e2 : s2[d] = d1 := (block_set_self ..).trans (by rw [rotr_eq _ _ (by omega), e1, f1 d had.symm])
  have f2 : ∀ i ≠ d, s2[i] = s1[i] := fun i h => block_set_other _ _ _ _ h
  have e3 : s3[c] = c1 := (block_set_self ..).trans (by rw [e2, f2 c hcd, f1 c hac.symm])
  have f3 : ∀ i ≠ c, s3[i] = s2[i] := fun i h => block_set_other _ _ _ _ h
  have e4 : s4[b] = b1 := (block_set_self ..).trans (by rw [rotr_eq _ _ (by omega), e3, f3 b hbc, f2 b hbd, f1 b hab.symm])
  have f4 : ∀ i ≠ b, s4[i] = s3[i] := fun i h => block_set_other _ _ _ _ h
  have e5 : s5[a] = a2 := (block_set_self ..).trans (by rw [e4, f4 a hab, f3 a hac, f2 a had, e1])
  have f5 : ∀ i ≠ a, s5[i] = s4[i] := fun i h => block_set_other _ _ _ _ h
  have e6 : s6[d] = d2 := (block_set_self ..).trans (by rw [rotr_eq _ _ (by omega), e5, f5 d had.symm, f4 d hbd.symm, f3 d hcd.symm, e2])
  have f6 : ∀ i ≠ d, s6[i] = s5[i] := fun i h => block_set_other _ _ _ _ h
  have e7 : s7[c] = c2 := (block_set_self ..).trans (by rw [e6, f6 c hcd, f5 c hac.symm, f4 c hbc.symm, e3])
  have f7 : ∀ i ≠ c, s7[i] = s6[i] := fun i h => block_set_other _ _ _ _ h
  have e8 : r[b] = b2 := hr ▸ (block_set_self s7 b _).trans (by rw [rotr_eq _ _ (by omega), e7, f7 b hbc, f6 b hbd, f5 b hab.symm, e4])
  have f8 : ∀ i ≠ b, r[i] = s7[i] := fun i h => hr ▸ block_set_other _ _ _ _ h
  refine ⟨?_, e8, ?_, ?_, ?_⟩
  · rw [f8 a hab, f7 a hac, f6 a had, e5]
  · rw [f8 c hbc.symm, e7]
  · rw [f8 d hbd.symm, f7 d hcd.symm, e6]
  · intro i hi
    simp only [List.mem_cons, List.not_mem_nil, or_false, not_or] at hi
    obtain ⟨h1, h2, h3, h4⟩ := hi
    rw [f8 i h2, f7 i h3, f6 i h4, f5 i h1, f4 i h2, f3 i h3, f2 i h4, f1 i h1]

theorem permute_get (m : Block) (i : Fin 16) : (permute m)[i] = m[PERM[i]] := by simp [permute]

end Sys2Proof.Machine
end

