-- ==== Sys2Proof/Laws/Decode.lean ====
section
/-! SUPPORT. The fields of a command word: what packing puts there, that they make up the word, what a word that decodes holds,
and which words are refused. -/

namespace Sys2Proof

/-- The fields of a packed word are the values packed, and its reserved bits are zero (R42). -/
theorem packWord_fields (op : BitVec 4) (len : BlockLen) (flg : Byte) :
    opField (packWord op len flg) = op ∧ lenField (packWord op len flg) = len ∧ flgField (packWord op len flg) = flg ∧
      rsvdLow (packWord op len flg) = 0 ∧ rsvdHigh (packWord op len flg) = 0 := by
  refine ⟨?_, ?_, ?_, ?_, ?_⟩ <;>
  · apply BitVec.eq_of_getLsbD_eq
    intro i hi
    simp [opField, lenField, flgField, rsvdLow, rsvdHigh, packWord, BitVec.getLsbD_extractLsb']
    try interval_cases i <;> simp

/-- Two words with the same fields are the same word: the five fields of R42 are all of it. -/
theorem word_ext {v w : Word} (h1 : opField v = opField w) (h2 : lenField v = lenField w) (h3 : rsvdLow v = rsvdLow w)
    (h4 : flgField v = flgField w) (h5 : rsvdHigh v = rsvdHigh w) : v = w := by
  apply BitVec.eq_of_getLsbD_eq
  intro i hi
  have bit : ∀ {n : Nat} (lo : Nat), v.extractLsb' lo n = w.extractLsb' lo n → ∀ j < n, v.getLsbD (lo + j) = w.getLsbD (lo + j) := by
    intro n lo h j hj
    simpa [BitVec.getLsbD_extractLsb', hj] using congrArg (·.getLsbD j) h
  rcases Nat.lt_or_ge i 4 with h | h
  · simpa using bit 0 h1 i h
  rcases Nat.lt_or_ge i 11 with h' | h'
  · simpa [Nat.add_sub_cancel' h] using bit 4 h2 (i - 4) (by omega)
  rcases Nat.lt_or_ge i 16 with h | h
  · simpa [Nat.add_sub_cancel' h'] using bit 11 h3 (i - 11) (by omega)
  rcases Nat.lt_or_ge i 24 with h' | h'
  · simpa [Nat.add_sub_cancel' h] using bit 16 h4 (i - 16) (by omega)
  · simpa [Nat.add_sub_cancel' h'] using bit 24 h5 (i - 24) (by omega)

/-- A word whose reserved bits are zero is the packing of its fields. -/
theorem word_eq_packWord {w : Word} (h1 : rsvdLow w = 0) (h2 : rsvdHigh w = 0) :
    w = packWord (opField w) (lenField w) (flgField w) := by
  obtain ⟨a, b, c, d, e⟩ := packWord_fields (opField w) (lenField w) (flgField w)
  exact word_ext a.symm b.symm (h1.trans d.symm) c.symm (h2.trans e.symm)

theorem opcodeOf_eq_some (b : BitVec 4) (op : Opcode) : opcodeOf b = some op ↔ b = op.bits := by
  revert b; cases op <;> decide

theorem opcodeOf_bits (op : Opcode) : opcodeOf op.bits = some op := (opcodeOf_eq_some _ _).mpr rfl

theorem opcodeOf_eq_none (b : BitVec 4) : opcodeOf b = none ↔ 9 ≤ b.toNat := by
  revert b; decide

/-- What a word that decodes to a command holds in its fields. -/
theorem decode_cmd_fields {w : Word} {i : Instr} (h : decode w = .cmd i) :
    opField w = i.opcode.bits ∧ lenField w = i.lenBits ∧ flgField w = i.flgBits ∧ rsvdLow w = 0 ∧ rsvdHigh w = 0 ∧ i.wf = true := by
  unfold decode at h
  split at h
  · cases h
  · next op hop =>
    have hb := (opcodeOf_eq_some _ _).mp hop
    unfold decodeFields at h
    split at h; · cases h
    next h1 =>
    split at h; · cases h
    next h2 =>
    split at h; · cases h
    next h3 =>
    split at h; · cases h
    next h4 =>
    cases h
    simp only [not_or, not_not] at h1
    refine ⟨by rw [hb]; cases op <;> rfl, ?_, ?_, h1.1, h1.2, ?_⟩ <;>
      cases op <;> simp_all [instrOf, Instr.lenBits, Instr.flgBits, Instr.wf, Opcode.usesLen, Opcode.usesFlg]

/-- The decoder gives no cause that R49 leaves to the state. -/
theorem decode_ne (w : Word) : decode w ≠ .refuse .noOutput ∧ decode w ≠ .refuse .ctrOvf := by
  unfold decode
  split
  · simp
  · unfold decodeFields
    repeat' split
    all_goals simp

theorem opcodeOf_of_le (w : Word) (h : (opField w).toNat ≤ 8) : ∃ op, opcodeOf (opField w) = some op ∧ opField w = op.bits := by
  cases h' : opcodeOf (opField w) with
  | none => have := (opcodeOf_eq_none _).mp h'; omega
  | some op => exact ⟨op, rfl, (opcodeOf_eq_some _ _).mp h'⟩

/-- Any bit in a field that the opcode does not use, or in a reserved field, gives RSVD_BITS (R46). -/
theorem decode_rsvd {w : Word} {op : Opcode} (ho : opcodeOf (opField w) = some op)
    (h : rsvdLow w ≠ 0 ∨ rsvdHigh w ≠ 0 ∨ (lenField w ≠ 0 ∧ op.usesLen = false) ∨ (flgField w ≠ 0 ∧ op.usesFlg = false)) :
    decode w = .refuse .rsvdBits := by
  simp only [decode, ho, decodeFields]
  by_cases h1 : rsvdLow w ≠ 0 ∨ rsvdHigh w ≠ 0
  · rw [if_pos h1]
  rw [if_neg h1]
  by_cases h2 : lenField w ≠ 0 ∧ op.usesLen = false
  · rw [if_pos h2]
  rw [if_neg h2, if_pos]
  simp only [not_or, not_not] at h1
  rcases h with h | h | h | h
  · exact absurd h1.1 h
  · exact absurd h1.2 h
  · exact absurd h h2
  · exact h

/-- The decoding of a packed word reads its values back and makes the checks on them alone (R49). -/
theorem decode_packWord (op : Opcode) (len : BlockLen) (flg : Byte) : decode (packWord op.bits len flg) =
    if len ≠ 0 ∧ op.usesLen = false then .refuse .rsvdBits
    else if flg ≠ 0 ∧ op.usesFlg = false then .refuse .rsvdBits
    else if op.usesLen = true ∧ lenLegal len = false then .refuse .badLen
    else .cmd (instrOf op len flg) := by
  obtain ⟨a, b, c, d, e⟩ := packWord_fields op.bits len flg
  simp only [decode, a, opcodeOf_bits, decodeFields, b, c, d, e]
  simp

theorem lenLegal_false {len : BlockLen} (h : 64 < len.toNat) : lenLegal len = false := by simp [lenLegal]; omega

theorem lenLegal_true {len : BlockLen} (h : len.toNat ≤ 64) : lenLegal len = true := by simp [lenLegal]; omega

/-! The masks that the opcode table gives. -/

theorem field_zero_iff (w : Word) (lo n : Nat) : w.extractLsb' lo n = 0 ↔ ∀ j < n, w.getLsbD (lo + j) = false := by
  constructor
  · intro h j hj
    have := congrArg (·.getLsbD j) h
    simpa [BitVec.getLsbD_extractLsb', hj] using this
  · intro h
    apply BitVec.eq_of_getLsbD_eq
    intro j hj
    simpa [BitVec.getLsbD_extractLsb', hj] using h j hj

theorem and_eq_zero_iff (w m : Word) : w &&& m = 0 ↔ ∀ i < 32, m.getLsbD i = true → w.getLsbD i = false := by
  constructor
  · intro h i hi hm
    have := congrArg (·.getLsbD i) h
    simpa [hm] using this
  · intro h
    apply BitVec.eq_of_getLsbD_eq
    intro i hi
    have := h i hi
    cases hm : m.getLsbD i <;> simp_all

/-- UPDATE's mask clear of unused bits: both reserved fields and FLG are zero (R43, R46). -/
theorem unused_update (w : Word) : w &&& 0xFFFFF800 = 0 ↔ rsvdLow w = 0 ∧ rsvdHigh w = 0 ∧ flgField w = 0 := by
  rw [rsvdLow, rsvdHigh, flgField, field_zero_iff, field_zero_iff, field_zero_iff, and_eq_zero_iff]
  constructor
  · intro h
    refine ⟨fun j hj => h _ (by omega) ?_, fun j hj => h _ (by omega) ?_, fun j hj => h _ (by omega) ?_⟩ <;> interval_cases j <;> rfl
  · rintro ⟨h1, h2, h3⟩ i hi hm
    by_cases a : i < 11
    · interval_cases i <;> exact absurd hm (by decide)
    by_cases b : i < 16
    · simpa [show 11 + (i - 11) = i by omega] using h1 (i - 11) (by omega)
    by_cases c : i < 24
    · simpa [show 16 + (i - 16) = i by omega] using h3 (i - 16) (by omega)
    · simpa [show 24 + (i - 24) = i by omega] using h2 (i - 24) (by omega)

/-- COMPRESS's mask clear of unused bits: both reserved fields are zero (R43, R46). -/
theorem unused_compress (w : Word) : w &&& 0xFF00F800 = 0 ↔ rsvdLow w = 0 ∧ rsvdHigh w = 0 := by
  rw [rsvdLow, rsvdHigh, field_zero_iff, field_zero_iff, and_eq_zero_iff]
  constructor
  · intro h
    refine ⟨fun j hj => h _ (by omega) ?_, fun j hj => h _ (by omega) ?_⟩ <;> interval_cases j <;> rfl
  · rintro ⟨h1, h2⟩ i hi hm
    by_cases a : i < 11
    · interval_cases i <;> exact absurd hm (by decide)
    by_cases b : i < 16
    · simpa [show 11 + (i - 11) = i by omega] using h1 (i - 11) (by omega)
    by_cases c : i < 24
    · interval_cases i <;> exact absurd hm (by decide)
    · simpa [show 24 + (i - 24) = i by omega] using h2 (i - 24) (by omega)

/-- The other commands' mask clear of unused bits: every field but OP is zero (R43, R46). -/
theorem unused_bare (w : Word) : w &&& 0xFFFFFFF0 = 0 ↔ rsvdLow w = 0 ∧ rsvdHigh w = 0 ∧ flgField w = 0 ∧ lenField w = 0 := by
  rw [rsvdLow, rsvdHigh, flgField, lenField, field_zero_iff, field_zero_iff, field_zero_iff, field_zero_iff, and_eq_zero_iff]
  constructor
  · intro h
    refine ⟨fun j hj => h _ (by omega) ?_, fun j hj => h _ (by omega) ?_, fun j hj => h _ (by omega) ?_, fun j hj => h _ (by omega) ?_⟩ <;> interval_cases j <;> rfl
  · rintro ⟨h1, h2, h3, h4⟩ i hi hm
    by_cases a : i < 4
    · interval_cases i <;> exact absurd hm (by decide)
    by_cases d : i < 11
    · simpa [show 4 + (i - 4) = i by omega] using h4 (i - 4) (by omega)
    by_cases b : i < 16
    · simpa [show 11 + (i - 11) = i by omega] using h1 (i - 11) (by omega)
    by_cases c : i < 24
    · simpa [show 16 + (i - 16) = i by omega] using h3 (i - 16) (by omega)
    · simpa [show 24 + (i - 24) = i by omega] using h2 (i - 24) (by omega)

theorem op_bit (w : Word) (i : Nat) (hi : i < 4) : (opField w).getLsbD i = w.getLsbD i := by
  simp [opField, hi]

/-- Masking OP too compares OP with itself: only the unused bits count. -/
theorem and_mask_op_iff (w m : Word) (hm : ∀ i < 4, m.getLsbD i = false) :
    w &&& (m ||| 0xF) = (opField w).zeroExtend 32 ↔ w &&& m = 0 := by
  rw [and_eq_zero_iff]
  have hF : ∀ i < 32, (0xF : Word).getLsbD i = decide (i < 4) := by decide
  constructor
  · intro h i hi hmi
    have := congrArg (·.getLsbD i) h
    by_cases h4 : i < 4
    · rw [hm i h4] at hmi; cases hmi
    · simp only [BitVec.getLsbD_and, BitVec.getLsbD_or, hmi, Bool.true_or, Bool.and_true, BitVec.truncate_eq_setWidth, BitVec.getLsbD_setWidth,
        BitVec.getLsbD_of_ge _ _ (Nat.not_lt.mp h4), Bool.and_false] at this
      exact this
  · intro h
    apply BitVec.eq_of_getLsbD_eq
    intro i hi
    simp only [BitVec.getLsbD_and, BitVec.getLsbD_or, hF i hi, BitVec.truncate_eq_setWidth, BitVec.getLsbD_setWidth, hi, decide_true, Bool.true_and]
    by_cases h4 : i < 4
    · rw [op_bit w i h4]; simp only [h4, decide_true, Bool.or_true, Bool.and_true]
    · simp only [h4, decide_false, Bool.or_false, BitVec.getLsbD_of_ge _ _ (Nat.not_lt.mp h4)]
      cases hmi : m.getLsbD i
      · simp
      · simp [h i hi hmi]

end Sys2Proof
end

