-- ==== Sys2Proof/Laws/Operands.lean ====
section
/-! SUPPORT. The byte lanes of a bus and the little-endian packing of words, byte by byte (R34 to R36). -/

namespace Sys2Proof.Machine

/-- Bit `j` of a bus comes from bit `j mod 8` of byte `j div 8`. -/
theorem busOf_bit (bs : List Byte) (j : Nat) (hj : j < 512) : (busOf bs).getLsbD j = (bs.getD (j / 8) 0).getLsbD (j % 8) := by
  induction bs generalizing j with
  | nil => simp [busOf]
  | cons b bs ih =>
    simp only [busOf, BitVec.getLsbD_or, BitVec.getLsbD_shiftLeft, BitVec.truncate_eq_setWidth, BitVec.getLsbD_setWidth, hj, decide_true, Bool.true_and]
    by_cases h8 : j < 8
    · have h1 : j / 8 = 0 := by omega
      have h2 : j % 8 = j := by omega
      simp [h8, h1, h2]
    · have h1 : j / 8 = (j - 8) / 8 + 1 := by omega
      have h2 : j % 8 = (j - 8) % 8 := by omega
      rw [ih (j - 8) (by omega), h1, h2]
      simp [h8, BitVec.getLsbD_of_ge b j (by omega)]

/-- Lane `i` of the bus that carries `bs` is byte `i`, and zero past the end (R34). -/
theorem busByte_busOf (bs : List Byte) (i : Nat) (hi : i < 64) : busByte (busOf bs) i = bs.getD i 0 := by
  apply BitVec.eq_of_getLsbD_eq
  intro j hj
  rw [busByte, BitVec.getLsbD_extractLsb', busOf_bit _ _ (by omega)]
  have h1 : (8 * i + j) / 8 = i := by omega
  have h2 : (8 * i + j) % 8 = j := by omega
  simp [hj, h1, h2]

theorem wordBytes_length (w : Word) : (wordBytes w).length = 4 := rfl

theorem wordBytes_get (w : Word) (k : Nat) (hk : k < 4) : (wordBytes w)[k]? = some (w.extractLsb' (8 * k) 8) := by
  interval_cases k <;> rfl

theorem flatMap_wordBytes_get (l : List Word) (i k : Nat) (hi : i < l.length) (hk : k < 4) :
    (l.flatMap wordBytes)[4 * i + k]? = (wordBytes l[i])[k]? := by
  induction l generalizing i with
  | nil => simp at hi
  | cons w l ih =>
    simp only [List.flatMap_cons]
    cases i with
    | zero => rw [List.getElem?_append_left (by simp [wordBytes_length, hk])]; simp
    | succ i =>
      rw [List.getElem?_append_right (by simp [wordBytes_length]; omega)]
      have : 4 * (i + 1) + k - (wordBytes w).length = 4 * i + k := by rw [wordBytes_length]; omega
      rw [this, ih i (by simpa using hi)]
      simp

theorem bytesOf_length {n : Nat} (w : Vector Word n) : (bytesOf w).length = 4 * n := by
  simp [bytesOf, List.length_flatMap, wordBytes_length, Nat.mul_comm]

/-- Byte `4 i + k` of `bytes(w)` is bits `8 k + 7 : 8 k` of word `i` (R36). -/
theorem bytesOf_get {n : Nat} (w : Vector Word n) (i k : Nat) (hi : i < n) (hk : k < 4) :
    (bytesOf w)[4 * i + k]? = some (w[i].extractLsb' (8 * k) 8) := by
  rw [bytesOf, flatMap_wordBytes_get _ _ _ (by simpa using hi) hk, wordBytes_get _ _ hk]
  simp

/-- A word is the packing of its four bytes (R35, R36). -/
theorem wordOfBytes_slices (w : Word) :
    wordOfBytes (w.extractLsb' 0 8) (w.extractLsb' 8 8) (w.extractLsb' 16 8) (w.extractLsb' 24 8) = w := by
  apply BitVec.eq_of_getLsbD_eq; intro i hi
  interval_cases i <;> simp [wordOfBytes]

/-- The bytes of a packed word are the bytes packed (R35, R36). -/
theorem wordBytes_of (a b c d : Byte) : wordBytes (wordOfBytes a b c d) = [a, b, c, d] := by
  simp only [wordBytes, List.cons.injEq, and_true]
  refine ⟨?_, ?_, ?_, ?_⟩ <;> (apply BitVec.eq_of_getLsbD_eq; intro i hi; interval_cases i <;> simp [wordOfBytes])

theorem updateData_length (d : Bus) (len : BlockLen) : (updateData d len).length = len.toNat := by simp [updateData, busBytes]

theorem updateData_succ (d : Bus) (n : Nat) (h : n < 64) :
    updateData d (BitVec.ofNat 7 (n + 1)) = updateData d (BitVec.ofNat 7 n) ++ [d.extractLsb' (8 * n) 8] := by
  simp only [updateData, busBytes, BitVec.toNat_ofNat]
  rw [Nat.mod_eq_of_lt (by omega), Nat.mod_eq_of_lt (by omega), List.range_succ, List.map_append]
  rfl

theorem busByte_slice (d : Bus) (i k : Nat) (hk : k < 4) : busByte d (4 * i + k) = (d.extractLsb' (32 * i) 32).extractLsb' (8 * k) 8 := by
  have e : ∀ j, 8 * (4 * i + k) + j = 32 * i + (8 * k + j) := by intro j; omega
  unfold busByte
  generalize d = d
  apply BitVec.eq_of_getLsbD_eq
  intro j hj
  rw [BitVec.getLsbD_extractLsb', BitVec.getLsbD_extractLsb', BitVec.getLsbD_extractLsb', e,
    show decide (8 * k + j < 32) = true from decide_eq_true (by omega), Bool.true_and]

theorem wordOfBytes_bus (d : Bus) (i : Nat) :
    wordOfBytes (busByte d (4 * i)) (busByte d (4 * i + 1)) (busByte d (4 * i + 2)) (busByte d (4 * i + 3)) = d.extractLsb' (32 * i) 32 := by
  rw [busByte_slice d i 1 (by omega), busByte_slice d i 2 (by omega), busByte_slice d i 3 (by omega),
    show 4 * i = 4 * i + 0 from rfl, busByte_slice d i 0 (by omega)]
  exact wordOfBytes_slices _

/-- The words of the low lanes of a bus are its 32-bit slices (R34, R35). -/
theorem wordsOf_bus (d : Bus) (n k : Nat) (hn : 4 * n ≤ k) (i : Nat) (hi : i < n) :
    (wordsOf n (busBytes d k))[i] = d.extractLsb' (32 * i) 32 := by
  rw [← wordOfBytes_bus d i]
  have g : ∀ j, j < k → (busBytes d k).getD j 0 = busByte d j := by
    intro j hj
    rw [List.getD_eq_getElem _ _ (by simp [busBytes, hj])]
    simp [busBytes]
  simp only [wordsOf, Vector.getElem_ofFn]
  rw [g _ (by omega), g _ (by omega), g _ (by omega), g _ (by omega)]

end Sys2Proof.Machine
end

