-- ==== Sys2Proof/Laws/Stream.lean ====
section
/-! SUPPORT. The machine against the reference hash, one byte at a time (R19, R71 to R74, R86, R87). -/

namespace Sys2Proof.Machine

/-! The stream cut into chunks and blocks. -/

theorem refCurrent_le (data : List Byte) : CHUNK_LEN * refCurrent data ≤ data.length := by
  simp only [refCurrent, lastUnit, CHUNK_LEN]; omega

theorem length_le_current (data : List Byte) : data.length ≤ CHUNK_LEN * refCurrent data + CHUNK_LEN := by
  simp only [refCurrent, lastUnit, CHUNK_LEN]; omega

theorem chunkBytes_length (data : List Byte) (n : Nat) : (chunkBytes data n).length = min CHUNK_LEN (data.length - CHUNK_LEN * n) := by
  simp [chunkBytes]

theorem current_length (data : List Byte) : (chunkBytes data (refCurrent data)).length = data.length - CHUNK_LEN * refCurrent data := by
  have := length_le_current data
  rw [chunkBytes_length]; omega

/-- A chunk that is complete does not change when bytes are appended. -/
theorem chunkBytes_append (data e : List Byte) (n : Nat) (h : CHUNK_LEN * (n + 1) ≤ data.length) :
    chunkBytes (data ++ e) n = chunkBytes data n := by
  simp only [chunkBytes, CHUNK_LEN] at *
  rw [List.drop_append_of_le_length (by omega), List.take_append_of_le_length (by simp; omega)]

/-- A block that is complete does not change when bytes are appended. -/
theorem blockBytes_append (c e : List Byte) (k : Nat) (h : BLOCK_LEN * (k + 1) ≤ c.length) :
    blockBytes (c ++ e) k = blockBytes c k := by
  simp only [blockBytes, BLOCK_LEN] at *
  rw [List.drop_append_of_le_length (by omega), List.take_append_of_le_length (by simp; omega)]

theorem refChunkCv_append (n : Nat) (c e : List Byte) (k : Nat) (h : BLOCK_LEN * k ≤ c.length) :
    refChunkCv n (c ++ e) k = refChunkCv n c k := by
  induction k with
  | zero => rfl
  | succ k ih =>
    simp only [refChunkCv]
    rw [ih (by simp only [BLOCK_LEN] at *; omega), blockBytes_append _ _ _ h]

/-- A subtree of complete chunks does not change when bytes are appended. -/
theorem refSubtree_append (data e : List Byte) (k n : Nat) (h : CHUNK_LEN * (n + 2 ^ k) ≤ data.length) :
    refSubtree (data ++ e) k n = refSubtree data k n := by
  induction k generalizing n with
  | zero => simp only [refSubtree]; rw [chunkBytes_append _ _ _ (by simpa using h)]
  | succ k ih =>
    have hp : 2 ^ (k + 1) = 2 ^ k + 2 ^ k := by rw [pow_succ]; omega
    have hpos := Nat.two_pow_pos k
    rw [hp] at h
    have h1 : CHUNK_LEN * (n + 2 ^ k) ≤ data.length := by simp only [CHUNK_LEN] at *; omega
    have h2 : CHUNK_LEN * (n + 2 ^ k + 2 ^ k) ≤ data.length := by simp only [CHUNK_LEN] at *; omega
    simp only [refSubtree]
    rw [ih n h1, ih (n + 2 ^ k) h2]

/-- Every subtree of the stack covers complete chunks only (R19). -/
theorem mem_refPeaks {c : Nat} {p : Nat × Nat} (h : p ∈ refPeaks c) : p.2 + 2 ^ p.1 ≤ c := by
  simp only [refPeaks, List.mem_filterMap] at h
  obtain ⟨k, -, hk⟩ := h
  split at hk
  · next hb =>
    cases hk
    rw [Nat.testBit_eq_decide_div_mod_eq, decide_eq_true_eq] at hb
    have h1 : c / 2 ^ (k + 1) = c / 2 ^ k / 2 := by rw [Nat.div_div_eq_div_mul, pow_succ]
    have h2 : c / 2 ^ k = 2 * (c / 2 ^ (k + 1)) + 1 := by omega
    have h3 : c / 2 ^ k * 2 ^ k ≤ c := Nat.div_mul_le_self c (2 ^ k)
    calc c / 2 ^ (k + 1) * 2 ^ (k + 1) + 2 ^ k = (2 * (c / 2 ^ (k + 1)) + 1) * 2 ^ k := by ring
      _ ≤ c := by rw [← h2]; exact h3
  · cases hk

theorem refStack_append (data e : List Byte) (c : Nat) (h : CHUNK_LEN * c ≤ data.length) :
    refStack (data ++ e) c = refStack data c := by
  refine List.map_congr_left fun p hp => refSubtree_append _ _ _ _ ?_
  exact le_trans (Nat.mul_le_mul_left _ (mem_refPeaks hp)) h

/-! The next byte: in the open chunk, or the first of the next one. -/

theorem current_append_same (data : List Byte) (b : Byte) (h : (chunkBytes data (refCurrent data)).length < CHUNK_LEN) :
    refCurrent (data ++ [b]) = refCurrent data ∧
      chunkBytes (data ++ [b]) (refCurrent data) = chunkBytes data (refCurrent data) ++ [b] := by
  have hlen := current_length data
  have hle := refCurrent_le data
  constructor
  · have : data.length < CHUNK_LEN * refCurrent data + CHUNK_LEN := by omega
    simp only [refCurrent, lastUnit, CHUNK_LEN, List.length_append, List.length_singleton] at *
    omega
  · simp only [chunkBytes]
    rw [List.drop_append_of_le_length hle, List.take_of_length_le (by simp; omega), List.take_of_length_le (by simp; omega)]

theorem current_append_next (data : List Byte) (b : Byte) (h : (chunkBytes data (refCurrent data)).length = CHUNK_LEN) :
    refCurrent (data ++ [b]) = refCurrent data + 1 ∧ chunkBytes (data ++ [b]) (refCurrent data + 1) = [b] := by
  have hlen := current_length data
  have hle := refCurrent_le data
  have hL : data.length = CHUNK_LEN * refCurrent data + CHUNK_LEN := by simp only [CHUNK_LEN] at *; omega
  constructor
  · simp only [refCurrent, lastUnit, CHUNK_LEN, List.length_append, List.length_singleton] at *
    omega
  · have : CHUNK_LEN * (refCurrent data + 1) = data.length := by rw [hL, Nat.mul_succ]
    simp only [chunkBytes, this, List.drop_left]
    rfl

/-! Words of a zero-padded buffer. -/

theorem getD_append_zeros (l : List Byte) (m i : Nat) : (l ++ List.replicate m (0 : Byte)).getD i 0 = l.getD i 0 := by
  simp only [List.getD_eq_getElem?_getD, List.getElem?_append]
  split
  · rfl
  · next h =>
    rw [List.getElem?_eq_none (l := l) (by omega), List.getElem?_replicate]
    split <;> rfl

/-- The zero padding of a block is what a short byte sequence is padded with (R12, R35). -/
theorem wordsOf_append_zeros (n : Nat) (l : List Byte) (m : Nat) : wordsOf n (l ++ List.replicate m 0) = wordsOf n l := by
  simp only [wordsOf, getD_append_zeros]

/-! The open chunk. -/

/-- In a state that has absorbed `data`, ChunkOutput is the reference node of the open chunk (R70, R72). -/
theorem chunkOutput_absorbed {data : List Byte} {s : State} (h : Absorbed data s) :
    chunkOutput s = refChunkNode (refCurrent data) (chunkBytes data (refCurrent data)) := by
  have hn : BitVec.ofNat 64 (refCurrent data) = s.chunk := BitVec.eq_of_toNat_eq (by rw [← h.chunk]; simp)
  have hl : (chunkBytes data (refCurrent data)).length - BLOCK_LEN * s.bcnt.toNat = s.blen.toNat := by
    rw [← h.blen, chunkLen_def, BLOCK_LEN]; omega
  have hb : BitVec.ofNat 7 ((chunkBytes data (refCurrent data)).length - BLOCK_LEN * s.bcnt.toNat) = s.blen := by
    rw [hl]; exact BitVec.eq_of_toNat_eq (by simp)
  have hst : startFlag s = refStart s.bcnt.toNat := by
    unfold startFlag refStart
    by_cases hz : s.bcnt = 0
    · simp [hz]
    · rw [if_neg hz, if_neg (fun e => hz (BitVec.eq_of_toNat_eq (by simpa using e)))]
  unfold chunkOutput refChunkNode
  simp only [← h.bcnt]
  rw [hn, hb, hst, ← h.cv, blkWords, h.blk, wordsOf_append_zeros]

/-- In a state that has absorbed `data`, RootNode is the reference root (R87). -/
theorem rootNode_absorbed {data : List Byte} {s : State} (h : Absorbed data s) : rootNode s = .ok (refRoot data) := by
  have hle : s.sp.toNat ≤ 64 := by
    rw [h.sp, refPeaks_eq_peaksUp]; exact peaksUp_length_le 64 0 _
  rw [rootNode_eq s hle, h.stack, chunkOutput_absorbed h]
  rfl

/-- The bytes of a state with a legal BLEN: how much of the last block is there. -/
theorem blen_absorbed {data : List Byte} {s : State} (h : Absorbed data s) :
    s.blen.toNat ≤ 64 ∧ (data = [] ∨ 0 < s.blen.toNat) := by
  have h1 := h.bcnt
  have h2 := h.blen
  have h3 := current_length data
  have h4 := length_le_current data
  rw [chunkLen_def] at h2
  simp only [lastUnit, BLOCK_LEN] at h1
  refine ⟨by omega, ?_⟩
  by_cases hd : data = []
  · exact .inl hd
  · right
    have hpos : 0 < data.length := List.length_pos_iff.mpr hd
    have hcur : CHUNK_LEN * refCurrent data < data.length := by
      simp only [refCurrent, lastUnit, CHUNK_LEN]; omega
    omega

theorem toList_set_byte (v : Vector Byte 64) (l : List Byte) (b : Byte) (n : Nat) (hn : n < 64) (hl : l.length = n)
    (h : v.toList = l ++ List.replicate (64 - n) 0) : (v.set n b).toList = (l ++ [b]) ++ List.replicate (64 - (n + 1)) 0 := by
  rw [Vector.toList_set, h]
  have h1 : 64 - n = (64 - (n + 1)) + 1 := by omega
  rw [h1, List.replicate_succ, List.set_append_right _ _ (by omega), hl]
  simp

theorem zeroBlk_set_zero (b : Byte) : (zeroBlk.set 0 b).toList = [b] ++ List.replicate 63 0 := by rfl

/-- A block that is being filled gains the byte that is appended. -/
theorem blockBytes_last (c : List Byte) (b : Byte) (k : Nat) (h1 : BLOCK_LEN * k ≤ c.length) (h2 : c.length < BLOCK_LEN * (k + 1)) :
    blockBytes (c ++ [b]) k = blockBytes c k ++ [b] ∧ (blockBytes c k).length = c.length - BLOCK_LEN * k := by
  simp only [blockBytes, BLOCK_LEN] at *
  rw [List.drop_append_of_le_length h1, List.take_of_length_le (by simp; omega), List.take_of_length_le (by simp; omega)]
  exact ⟨rfl, by simp⟩

/-- One more byte of the stream: the hash state follows the reference (R68, R79, R86). -/
theorem absorb_absorbed {data : List Byte} {s t : State} {b : Byte} (ha : Absorbed data s)
    (hmax : chunkLen s = CHUNK_LEN → s.chunk ≠ maxChunk) (h : absorb b s = .ok t) : Absorbed (data ++ [b]) t := by
  obtain ⟨hb64, hbpos⟩ := blen_absorbed ha
  have hcl := ha.blen
  by_cases hfull : chunkLen s = CHUNK_LEN
  · -- the chunk is full: it is closed, and the byte starts the next one
    have hlt := chunk_lt_max (hmax hfull)
    have hclen : (chunkBytes data (refCurrent data)).length = CHUNK_LEN := by rw [← hcl, hfull]
    obtain ⟨hcur, hbytes⟩ := current_append_next data b hclen
    have hL : data.length = CHUNK_LEN * (refCurrent data + 1) := by
      have h1 := current_length data
      have h2 := refCurrent_le data
      simp only [CHUNK_LEN] at *; omega
    obtain ⟨stk', sp', hp, hsp', hval⟩ := pushChunkCv_spec (cvOf (chunkOutput s)) s hlt (by rw [ha.chunk, ha.sp])
    have hstk := hval (data ++ [b])
      (by rw [chunkOutput_absorbed ha, ha.chunk, refSubtree, chunkBytes_append _ _ _ (by rw [hL])])
      (by rw [ha.chunk, refStack_append _ _ _ (refCurrent_le data)]; exact ha.stack)
    simp only [absorb, hfull, if_true, closeChunk, hp] at h
    rw [absorbByte_room b (by simp)] at h
    cases h
    have hc1 : (s.chunk + 1).toNat = refCurrent (data ++ [b]) := by rw [chunk_add_one hlt, hcur, ha.chunk]
    refine ⟨hc1, ?_, ?_, ?_, ?_, ?_, ?_⟩
    · rw [hcur, hbytes]
      show (0 : BitVec 4).toNat = lastUnit 1 64
      rfl
    · rw [hcur, hbytes]
      show 64 * (0 : BitVec 4).toNat + ((0 : BlockLen) + 1).toNat = 1
      rfl
    · rw [hcur, hbytes]; rfl
    · rw [hcur, hbytes]; exact zeroBlk_set_zero b
    · rw [hcur, ← ha.chunk]; exact hstk
    · rw [hcur, ← ha.chunk]; exact hsp'
  · -- the chunk has room
    have hclt : (chunkBytes data (refCurrent data)).length < CHUNK_LEN := by
      have h1 := current_length data
      have h2 := length_le_current data
      have : (chunkBytes data (refCurrent data)).length ≠ CHUNK_LEN := by rw [← hcl]; exact hfull
      omega
    obtain ⟨hcur, hbytes⟩ := current_append_same data b hclt
    have hstack := refStack_append data [b] (refCurrent data) (refCurrent_le data)
    have hbc := ha.bcnt
    rw [chunkLen_def] at hcl
    simp only [absorb, hfull, if_false] at h
    rcases Nat.lt_or_ge s.blen.toNat 64 with hlt | hge
    · rw [absorbByte_room b hlt] at h
      cases h
      have hb1 : (s.blen + 1).toNat = s.blen.toNat + 1 := blen_add_one (by omega)
      obtain ⟨hbl, hbllen⟩ := blockBytes_last (chunkBytes data (refCurrent data)) b s.bcnt.toNat
        (by rw [BLOCK_LEN]; omega) (by rw [BLOCK_LEN]; omega)
      refine ⟨by rw [hcur]; exact ha.chunk, ?_, ?_, ?_, ?_, by rw [hcur, hstack]; exact ha.stack, by rw [hcur]; exact ha.sp⟩
      · rw [hcur, hbytes]
        simp only [lastUnit, BLOCK_LEN, List.length_append, List.length_singleton] at *
        omega
      · rw [hcur, hbytes, List.length_append, ← ha.blen, chunkLen_def, chunkLen_def]
        show 64 * s.bcnt.toNat + (s.blen + 1).toNat = _
        rw [hb1]; rfl
      · rw [hcur, hbytes, refChunkCv_append _ _ _ _ (by show BLOCK_LEN * s.bcnt.toNat ≤ _; rw [BLOCK_LEN]; omega)]
        exact ha.cv
      · rw [hcur, hbytes]
        show (s.blk.set s.blen.toNat b).toList = blockBytes _ s.bcnt.toNat ++ List.replicate (64 - (s.blen + 1).toNat) 0
        rw [hbl, hb1]
        exact toList_set_byte _ _ _ _ hlt (by rw [hbllen, BLOCK_LEN]; omega) ha.blk
    · have h64 : s.blen.toNat = 64 := le_antisymm hb64 hge
      rw [absorbByte_full b h64] at h
      cases h
      have hlt15 : s.bcnt.toNat < 15 := by
        simp only [CHUNK_LEN] at hclt; omega
      have hb1 : (s.bcnt + 1).toNat = s.bcnt.toNat + 1 := bcnt_add_one hlt15
      have hn : BitVec.ofNat 64 (refCurrent data) = s.chunk := BitVec.eq_of_toNat_eq (by rw [← ha.chunk]; simp)
      have hfullb : BLOCK_LEN * (s.bcnt.toNat + 1) ≤ (chunkBytes data (refCurrent data)).length := by
        rw [BLOCK_LEN]; omega
      have hst : startFlag s = refStart s.bcnt.toNat := by
        unfold startFlag refStart
        by_cases hz : s.bcnt = 0
        · simp [hz]
        · rw [if_neg hz, if_neg (fun e => hz (BitVec.eq_of_toNat_eq (by simpa using e)))]
      refine ⟨by rw [hcur]; exact ha.chunk, ?_, ?_, ?_, ?_, by rw [hcur, hstack]; exact ha.stack, by rw [hcur]; exact ha.sp⟩
      · rw [hcur, hbytes]
        show (s.bcnt + 1).toNat = _
        rw [hb1]
        simp only [lastUnit, BLOCK_LEN, List.length_append, List.length_singleton] at *
        omega
      · rw [hcur, hbytes, List.length_append, ← ha.blen, chunkLen_def, chunkLen_def]
        show 64 * (s.bcnt + 1).toNat + 1 = _
        rw [hb1, h64]; simp; omega
      · rw [hcur, hbytes]
        show cvOf ⟨s.cv, blkWords s, s.chunk, 64, startFlag s⟩ = refChunkCv _ _ (s.bcnt + 1).toNat
        rw [hb1, refChunkCv, refChunkCv_append _ _ _ _ (by simp only [BLOCK_LEN] at *; omega), ← ha.cv,
          blockBytes_append _ _ _ hfullb, hn, ← hst, blkWords, ha.blk, wordsOf_append_zeros]
      · rw [hcur, hbytes]
        show (zeroBlk.set 0 b).toList = blockBytes _ (s.bcnt + 1).toNat ++ List.replicate 63 0
        rw [zeroBlk_set_zero, hb1]
        congr 1
        simp only [blockBytes]
        rw [List.drop_append_of_le_length hfullb, List.drop_of_length_le (by simp only [BLOCK_LEN]; omega)]
        rfl

/-- A state that has absorbed a stream meets the invariant of the hash registers. -/
theorem hashInv_of_absorbed {data : List Byte} {s : State} (h : Absorbed data s) : HashInv s := by
  obtain ⟨hb64, hpos⟩ := blen_absorbed h
  refine ⟨hb64, ?_, ?_, by rw [onesCount_eq_length, h.chunk, h.sp]⟩
  · intro i hi hle
    have hlen : (blockBytes (chunkBytes data (refCurrent data)) s.bcnt.toNat).length ≤ s.blen.toNat := by
      have := congrArg List.length h.blk
      simp at this
      omega
    have : s.blk.toList[i]'(by simpa using hi) = 0 := by
      simp only [h.blk]
      rw [List.getElem_append_right (by omega)]
      simp
    simpa using this
  · intro h0
    have hz : s.blen.toNat = 0 := by rw [h0]; rfl
    rcases hpos with rfl | hp
    · have hc : s.chunk.toNat = 0 := h.chunk
      have hbc : s.bcnt.toNat = 0 := h.bcnt
      have hs : s.sp.toNat = 0 := h.sp.trans (by rw [show refCurrent ([] : List Byte) = 0 from rfl, refPeaks_eq_peaksUp, peaksUp_zero]; rfl)
      exact ⟨BitVec.eq_of_toNat_eq (by simpa using hbc), BitVec.eq_of_toNat_eq (by simpa using hc), BitVec.eq_of_toNat_eq (by simpa using hs)⟩
    · omega

end Sys2Proof.Machine
end

