-- ==== Sys2Proof/Laws/Exec.lean ====
section
/-! SUPPORT. What each command answers and what it can write (R64, R65, R82 to R92, R98 to R101), and what running a list of commands does. -/

namespace Sys2Proof.Machine

/-! Refusals. -/

/-- A refusal writes ERR and ERRCODE alone (R98). -/
theorem refuse_form (s : State) (e : ErrCode) : s.refuse e = { s with err := (s.refuse e).err, errcode := (s.refuse e).errcode } := by
  unfold State.refuse; split <;> rfl

theorem errBits_range (e : ErrCode) : 1 ≤ (errBits e).toNat ∧ (errBits e).toNat ≤ 5 := by cases e <;> decide

theorem runCommand_refuse {c : Command} {s : State} {e : ErrCode} (h : decode c.cmd = .refuse e) :
    runCommand c s = .next ((s.accept c).refuse e) := by simp only [runCommand, h, runDecoded]

theorem maxChunk_iff (x : Counter) : x = maxChunk ↔ x.toNat = 2 ^ 64 - 1 := by
  constructor
  · rintro rfl; decide
  · intro h; exact BitVec.eq_of_toNat_eq (by rw [h]; decide)

theorem ctrOverflow_iff (len : BlockLen) (s : State) :
    ctrOverflow len s = true ↔ s.chunk.toNat = 2 ^ 64 - 1 ∧ 1024 < chunkLen s + len.toNat := by
  simp only [ctrOverflow, Bool.and_eq_true, decide_eq_true_eq, maxChunk_iff, CHUNK_LEN, gt_iff_lt]

theorem updateRefusal_some {len : BlockLen} {s : State} {e : ErrCode} (h : updateRefusal len s = some e) :
    (e = .badLen ∧ lenLegal len = false) ∨ (e = .ctrOvf ∧ lenLegal len = true ∧ ctrOverflow len s = true) := by
  unfold updateRefusal at h
  split at h
  · next h1 => cases h; exact .inl ⟨rfl, h1⟩
  · next h1 =>
    split at h
    · next h2 => cases h; exact .inr ⟨rfl, by simpa using h1, h2⟩
    · cases h

theorem updateRefusal_none {len : BlockLen} {s : State} (h1 : len.toNat ≤ 64)
    (h2 : ¬(s.chunk.toNat = 2 ^ 64 - 1 ∧ 1024 < chunkLen s + len.toNat)) :
    updateRefusal len s = none := by
  have : ctrOverflow len s = false := by
    cases h : ctrOverflow len s
    · rfl
    · exact absurd ((ctrOverflow_iff _ _).mp h) h2
  simp [updateRefusal, lenLegal_true h1, this]

theorem updateRefusal_eq_none {len : BlockLen} {s : State} (hr : updateRefusal len s = none) :
    len.toNat ≤ 64 ∧ ctrOverflow len s = false ∧ ¬(s.chunk.toNat = 2 ^ 64 - 1 ∧ 1024 < chunkLen s + len.toNat) := by
  unfold updateRefusal at hr
  split at hr
  · cases hr
  next h1 =>
  split at hr
  · cases hr
  next h2 =>
  refine ⟨by simpa [lenLegal] using h1, by simpa using h2, fun hc => h2 ((ctrOverflow_iff _ _).mpr hc)⟩

theorem stateRefusal_accept (i : Instr) (s : State) (c : Command) : stateRefusal i (s.accept c) = stateRefusal i s := by
  cases i <;> rfl

/-- A command that the state refuses only records the refusal (R98). -/
theorem exec_of_stateRefusal {i : Instr} {s : State} {e : ErrCode} (h : stateRefusal i s = some e) : exec i s = .next (s.refuse e) := by
  cases i <;> simp only [stateRefusal] at h <;> try cases h
  case update len => simp only [exec, execUpdate, h]
  case squeeze =>
    split at h
    · cases h
    · next ho => cases h; simp only [exec, execSqueeze, if_neg ho]
  case compress len flg =>
    split at h
    · cases h
    · next ho => cases h; simp only [exec, execCompress]; simp [Bool.eq_false_of_not_eq_true ho]

/-! Commands that execute. -/

theorem exec_finalize {s : State} {n : Node} (h : rootNode s = .ok n) : exec .finalize s = .next (latchRoot s n) := by
  simp only [exec, execFinalize, h]

theorem exec_squeeze {s : State} (h : s.outv = true) :
    exec .squeeze s = .next { s with dout := segmentWords s s.octr, octr := s.octr + 1, dvalid := true } := by
  simp only [exec, execSqueeze, if_pos h]

theorem exec_compress {len : BlockLen} (flg : Byte) (s : State) (h : len.toNat ≤ 64) : exec (.compress len flg) s =
    .next { s with dout := compress s.rawcv (compressOperand s.din) s.aux len (flgWord flg), dvalid := true } := by
  simp only [exec, execCompress, lenLegal_true h]; rfl

/-- What a command other than RESET and UPDATE can write: nothing of the chunk processor, the stack or the ports. -/
theorem exec_writes {i : Instr} {s t : State} (h : exec i s = .next t) (h1 : i ≠ .reset) (h2 : ∀ len, i ≠ .update len) :
    t = { s with
      outv := t.outv, ocv := t.ocv, oblk := t.oblk, obl := t.obl, oflg := t.oflg, octr := t.octr, rawcv := t.rawcv, dout := t.dout,
      dvalid := t.dvalid, err := t.err, errcode := t.errcode } := by
  cases i <;> simp only [exec] at h
  case nop => cases h; rfl
  case reset => exact absurd rfl h1
  case update len => exact absurd rfl (h2 len)
  case finalize =>
    simp only [execFinalize] at h
    split at h <;> cases h
    rfl
  case squeeze =>
    simp only [execSqueeze] at h
    split at h <;> cases h
    · rfl
    · unfold State.refuse; split <;> rfl
  case seek => cases h; rfl
  case loadcv => cases h; rfl
  case compress len flg =>
    simp only [execCompress] at h
    split at h <;> cases h
    · unfold State.refuse; split <;> rfl
    · rfl
  case clrerr => cases h; rfl

/-- A command that is not refused leaves the error record alone, but for RESET and CLRERR (R98). -/
theorem exec_err {i : Instr} {s t : State} (h : exec i s = .next t) (hr : stateRefusal i s = none) (h1 : i ≠ .reset) (h8 : i ≠ .clrerr) :
    t.err = s.err ∧ t.errcode = s.errcode := by
  cases i <;> simp only [exec] at h
  case nop => cases h; exact ⟨rfl, rfl⟩
  case reset => cases h1 rfl
  case update len =>
    simp only [stateRefusal] at hr
    simp only [execUpdate, hr] at h
    split at h
    · cases h
    · next u hu => cases h; rw [absorbAll_frame hu]; exact ⟨rfl, rfl⟩
  case finalize =>
    simp only [execFinalize] at h
    split at h
    · cases h
    · cases h; exact ⟨rfl, rfl⟩
  case squeeze =>
    simp only [stateRefusal] at hr
    simp only [execSqueeze] at h
    split at hr
    · next ho => rw [if_pos ho] at h; cases h; exact ⟨rfl, rfl⟩
    · cases hr
  case seek => cases h; exact ⟨rfl, rfl⟩
  case loadcv => cases h; exact ⟨rfl, rfl⟩
  case compress len flg =>
    simp only [stateRefusal] at hr
    simp only [execCompress] at h
    split at hr
    · next ho => simp only [ho] at h; cases h; exact ⟨rfl, rfl⟩
    · cases hr
  case clrerr => cases h8 rfl

/-- RESET's values: STATUS is the reset STATUS (R83). -/
theorem loadReset_status (s : State) : statusWord s.loadReset = 0x00000040 := by
  simp [statusWord, State.loadReset, chunkInit, emptyFlag]

theorem loadReset_obs (s : State) :
   SameObservable { State.reset with queue := s.queue, pos := s.pos, cmd := s.cmd, din := s.din, aux := s.aux } s.loadReset := by
  refine ⟨rfl, ?_, ?_⟩
  · intro j h hj; exact absurd hj (by simp [State.reset])
  · intro h; cases h

/-! UPDATE's loop in a state that meets the invariant. -/

theorem sp_le_of_hashInv {s : State} (h : HashInv s) : s.sp.toNat ≤ 64 := by
  rw [h.sp_ones, onesCount]
  exact (List.length_filter_le _ _).trans (by simp)

theorem chunkLen_le_of_hashInv {s : State} (hinv : HashInv s) : chunkLen s ≤ 1024 := by
  have := s.bcnt.isLt; have := hinv.blen_le
  rw [chunkLen_def]; omega

/-- An UPDATE that does not overflow the counter stays within the input limit of R85. -/
theorem room_of_no_overflow {n : Nat} {s : State} (hinv : HashInv s) (hl : n ≤ 64) (h : ¬(s.chunk.toNat = 2 ^ 64 - 1 ∧ 1024 < chunkLen s + n)) :
    CHUNK_LEN * s.chunk.toNat + chunkLen s + n ≤ 2 ^ 74 := by
  have := s.chunk.isLt
  have := chunkLen_le_of_hashInv hinv
  rw [CHUNK_LEN]; omega

/-- The stream grows by the bytes absorbed (R84). -/
theorem absorbAll_count {bs : List Byte} {s t : State} (hinv : HashInv s)
    (hroom : CHUNK_LEN * s.chunk.toNat + chunkLen s + bs.length ≤ 2 ^ 74) (h : absorbAll bs s = .ok t) :
    1024 * t.chunk.toNat + chunkLen t = 1024 * s.chunk.toNat + chunkLen s + bs.length := by
  induction bs generalizing s with
  | nil => cases h; rfl
  | cons b bs ih =>
    simp only [List.length_cons] at hroom ⊢
    have hmax : chunkLen s = CHUNK_LEN → s.chunk ≠ maxChunk := by
      intro h1 h2
      rw [h1, (maxChunk_iff _).mp h2, CHUNK_LEN] at hroom
      omega
    obtain ⟨u, hu, hui⟩ := absorb_inv b hinv hmax
    obtain ⟨-, -, hc, hl⟩ := absorb_position hinv hmax hu
    simp only [absorbAll, hu] at h
    have e : 1024 * u.chunk.toNat + chunkLen u = 1024 * s.chunk.toNat + chunkLen s + 1 := by
      rw [hc, hl, CHUNK_LEN]; split <;> omega
    have := ih hui (by rw [CHUNK_LEN] at *; omega) h
    omega

theorem absorbed_of_agree {data : List Byte} {s t : State} (ha : HashAgree True s t) (h : Absorbed data s) : Absorbed data t := by
  have hstk : s.stk = t.stk := Vector.ext fun j hj => ha.stk j hj (.inl trivial)
  have e : t = t.withHashOf s := by
    rw [ha.eq t]; rfl
  rw [e]
  exact ⟨h.1, h.2, h.3, h.4, h.5, h.6, h.7⟩

/-- Absorbing bytes appends them to the stream (R84, R86). -/
theorem absorbAll_absorbed {bs data : List Byte} {s t : State} (ha : Absorbed data s)
    (hroom : CHUNK_LEN * s.chunk.toNat + chunkLen s + bs.length ≤ 2 ^ 74) (h : absorbAll bs s = .ok t) : Absorbed (data ++ bs) t := by
  induction bs generalizing s data with
  | nil => cases h; simpa using ha
  | cons b bs ih =>
    simp only [List.length_cons] at hroom
    have hmax : chunkLen s = CHUNK_LEN → s.chunk ≠ maxChunk := by
      intro h1 h2
      rw [h1, (maxChunk_iff _).mp h2, CHUNK_LEN] at hroom
      omega
    simp only [absorbAll] at h
    split at h
    · cases h
    · next u hu =>
      obtain ⟨-, -, hc, hl⟩ := absorb_position (hashInv_of_absorbed ha) hmax hu
      have := ih (absorb_absorbed ha hmax hu) (by
        rw [hc, hl]; simp only [CHUNK_LEN] at *; by_cases hf : chunkLen s = 1024 <;> simp only [hf, if_true, if_false] <;> omega) h
      simpa using this

/-! Running. -/

/-- A command neither reads nor writes the host's sequence (R29). -/
theorem exec_withQueue (i : Instr) (s : State) (q : List Command) : exec i { s with queue := q } = match exec i s with
    | .next t => .next { t with queue := q } | .fault f => .fault f | .refused r => .refused r := by
  have hrf : ∀ c, ({ s with queue := q } : State).refuse c = { s.refuse c with queue := q } := by
    intro c; unfold State.refuse; dsimp only; split <;> rfl
  cases i
  case nop => rfl
  case reset => rfl
  case seek => rfl
  case loadcv => rfl
  case clrerr => rfl
  case squeeze =>
    simp only [exec, execSqueeze]
    by_cases h : s.outv = true
    · rw [if_pos h, if_pos h]; rfl
    · rw [if_neg h, if_neg h, hrf]
  case compress len flg =>
    simp only [exec, execCompress]
    by_cases h : lenLegal len = false
    · rw [if_pos h, if_pos h, hrf]
    · rw [if_neg h, if_neg h]
  case finalize =>
    simp only [exec, execFinalize, rootNode_agree (A := True) (s := { s with queue := q }) (t := s) ⟨rfl, rfl, rfl, rfl, rfl, rfl, fun _ _ _ => rfl⟩]
    cases rootNode s <;> rfl
  case update len =>
    simp only [exec, execUpdate]
    rw [show updateRefusal len { s with queue := q } = updateRefusal len s from rfl]
    cases updateRefusal len s with
    | some c => dsimp only; rw [hrf]
    | none =>
      dsimp only
      have := absorbAll_lift (updateData s.din len) { s with queue := q } s
      rw [show ({ s with queue := q } : State).withHashOf s = { s with queue := q } from rfl] at this
      rw [this]
      cases h : absorbAll (updateData s.din len) s with
      | error f => rfl
      | ok y => dsimp only; rw [absorbAll_frame h]; rfl

theorem runCommand_withQueue (c : Command) (s : State) (q : List Command) : runCommand c { s with queue := q } = match runCommand c s with
    | .next t => .next { t with queue := q } | .fault f => .fault f | .refused r => .refused r := by
  unfold runCommand runDecoded
  cases decode c.cmd with
  | cmd i => exact exec_withQueue i (s.accept c) q
  | refuse e =>
    show Host.Outcome.next (State.refuse { s.accept c with queue := q } e) = _
    dsimp only
    congr 1; unfold State.refuse; dsimp only; split <;> rfl

theorem run_next {M : Host.Core} {n : Nat} {s t : M.State} (h : M.step s = .next t) : M.run (n + 1) s = M.run n t := by
  rw [Host.Core.run, h]

theorem run_fault {M : Host.Core} {n : Nat} {s : M.State} {f : M.Fault} (h : M.step s = .fault f) : M.run (n + 1) s = .fault f := by
  rw [Host.Core.run, h]

theorem run_refused {M : Host.Core} {n : Nat} {s : M.State} {r : M.Refusal} (h : M.step s = .refused r) : M.run (n + 1) s = .refused r := by
  rw [Host.Core.run, h]

end Sys2Proof.Machine
end

