-- ==== Sys2Proof/Laws/PerInstr.lean ====
section
/-! SUPPORT. Statements about every command as syntax, one lemma per constructor: where its word holds what (R42, R43, R46). -/

namespace Sys2Proof.Laws.Layout

/-- The word of a command holds its opcode value and its own fields, and zeros in the fields it does not use and in the reserved
bits; and its opcode value is the one the opcode map reads back as this command's opcode (R42, R43, R46). -/
def Statement (i : Instr) : Prop :=
  opcodeOf (opField (encode i)) = some i.opcode ∧ lenField (encode i) = i.lenBits ∧ flgField (encode i) = i.flgBits ∧
    rsvdLow (encode i) = 0 ∧ rsvdHigh (encode i) = 0

/-- The layout of a command, whichever it is. -/
theorem of_encode (i : Instr) : Statement i := by
  obtain ⟨a, b, c, d, e⟩ := packWord_fields i.opcode.bits i.lenBits i.flgBits
  exact ⟨(congrArg opcodeOf a).trans (opcodeOf_bits _), b, c, d, e⟩

theorem nop : Statement .nop := of_encode _
theorem reset : Statement .reset := of_encode _
theorem update (len : BlockLen) : Statement (.update len) := of_encode _
theorem finalize : Statement .finalize := of_encode _
theorem squeeze : Statement .squeeze := of_encode _
theorem seek : Statement .seek := of_encode _
theorem loadcv : Statement .loadcv := of_encode _
theorem compress (len : BlockLen) (flg : Byte) : Statement (.compress len flg) := of_encode _
theorem clrerr : Statement .clrerr := of_encode _

end Sys2Proof.Laws.Layout
end

