-- ==== Sys2Proof/Tests/Slice0.lean ====
section
/-! SUPPORT. The model's own tests: the well-formedness smoke, words written out from the encoding, one-step tests whose expected values
are those of spec/95_test_vectors.md, and for every statement that has hypotheses a state and operands that meet them. -/

namespace Sys2Proof.Tests

open Sys2Proof Sys2Proof.Machine Sys2Proof.Claims

/-! Small states and readers of one step. -/

/-- The reset state with the position of a stream put in; the buffer and the stack hold zeros. -/
def posState (chunk : Counter) (bcnt : BitVec 4) (blen : BlockLen) (sp : BitVec 7) : State :=
  { State.reset with chunk := chunk, bcnt := bcnt, blen := blen, sp := sp }

theorem posState_inv (chunk : Counter) (bcnt : BitVec 4) (blen : BlockLen) (sp : BitVec 7) (h1 : blen.toNat ≤ 64)
    (h2 : blen = 0 → bcnt = 0 ∧ chunk = 0 ∧ sp = 0) (h3 : sp.toNat = onesCount chunk.toNat) : HashInv (posState chunk bcnt blen sp) :=
  ⟨h1, fun i h _ => by simp [posState, State.reset, zeroBlk], h2, h3⟩

/-- The bus that carries "abc". -/
def abcBus : Bus := busOf [0x61, 0x62, 0x63]

/-- The state after `UPDATE 3, 616263` and FINALIZE from reset, written from R88's example. -/
def abcLatched : State :=
  { State.reset with
    blen := 3, outv := true, ocv := IV, oblk := #v[0x00636261, 0, 0, 0, 0, 0, 0, 0, 0, 0, 0, 0, 0, 0, 0, 0], obl := 3, oflg := 0x0B }

/-- One accepted command, and a reader of the state it leaves. -/
def ran {α : Type} (f : State → α) (s : State) (w : Word) (d : Bus) (a : Counter) : Option α :=
  match runCommand ⟨w, d, a⟩ s with
  | .next t => some (f t)
  | .fault _ => none
  | .refused _ => none

/-! Well-formedness. -/

theorem test_wf_update_64 : (Instr.update 64).wf = true := by decide
theorem test_wf_update_65_refused : (Instr.update 65).wf = false := by decide
theorem test_wf_update_127_refused : (Instr.update 127).wf = false := by decide
theorem test_wf_compress_64 : (Instr.compress 64 0xFF).wf = true := by decide
theorem test_wf_compress_65_refused : (Instr.compress 65 0).wf = false := by decide

/-! Decoding: the word of every constructor, bit by bit from R42 and R43, and the words of V-E1. -/

theorem test_decode_nop : decode 0b00000000000000000000000000000000 = .cmd .nop := by decide
theorem test_decode_reset : decode 0b00000000000000000000000000000001 = .cmd .reset := by decide
theorem test_decode_update_61 : decode 0b00000000000000000000001111010010 = .cmd (.update 61) := by decide
theorem test_decode_finalize : decode 0b00000000000000000000000000000011 = .cmd .finalize := by decide
theorem test_decode_squeeze : decode 0b00000000000000000000000000000100 = .cmd .squeeze := by decide
theorem test_decode_seek : decode 0b00000000000000000000000000000101 = .cmd .seek := by decide
theorem test_decode_loadcv : decode 0b00000000000000000000000000000110 = .cmd .loadcv := by decide
theorem test_decode_compress : decode 0b00000000000010110000000000110111 = .cmd (.compress 3 0x0B) := by decide
theorem test_decode_compress_ff : decode 0x00FF0407 = .cmd (.compress 64 0xFF) := by decide
theorem test_decode_clrerr : decode 0b00000000000000000000000000001000 = .cmd .clrerr := by decide

theorem test_decode_refusals :
    decode 0x00000009 = .refuse .illegalOp ∧ decode 0x0000041F = .refuse .illegalOp ∧ decode 0x00000800 = .refuse .rsvdBits ∧
    decode 0x01000002 = .refuse .rsvdBits ∧ decode 0x00000010 = .refuse .rsvdBits ∧ decode 0x00010003 = .refuse .rsvdBits ∧
    decode 0x00010002 = .refuse .rsvdBits ∧ decode 0x00000C12 = .refuse .rsvdBits ∧ decode 0x01000412 = .refuse .rsvdBits ∧
    decode 0x00000412 = .refuse .badLen ∧ decode 0x000007F2 = .refuse .badLen ∧ decode 0x00000417 = .refuse .badLen := by decide

theorem test_encode : encode (.update 61) = 0x000003D2 ∧ encode (.compress 0 0x0B) = 0x000B0007 ∧ encode (.compress 64 0xFF) = 0x00FF0407 ∧
    encode .clrerr = 0x00000008 := by decide

/-- The table's words run as the first command after reset. -/
theorem test_fetch_word : decodeTableWord 32 0x00000032 = some (.update 3) ∧
    step (State.reset.withFetchWord 32 0x00000005) = exec .seek { State.reset with cmd := 5, pos := 1 } := ⟨by decide, rfl⟩

/-! One step each (values of spec/95_test_vectors.md). -/

/-- V-E1: STATUS after one refused word from reset. -/
theorem test_refused_status : ran statusWord State.reset 0x0000000F 0 0 = some 0x00000043 ∧
    ran statusWord State.reset 0x00000412 0 0 = some 0x00000047 ∧ ran statusWord State.reset 0x00000004 0 0 = some 0x00000049 := by
  decide +kernel

/-- P5, line 2: a second refusal is not recorded. -/
theorem test_first_error_kept : ran statusWord { State.reset with err := true, errcode := 1 } 0x00000004 0 0 = some 0x00000043 := by
  decide +kernel

theorem test_nop : ran statusWord abcLatched 0x00000000 0 0 = some 0x00000190 := by decide +kernel

/-- V-D1: RESET gives the reset STATUS and clears the error record. -/
theorem test_reset : ran statusWord { abcLatched with err := true, errcode := 3 } 0x00000001 0 0 = some 0x00000040 := by
  decide +kernel

/-- V-D1: 61 bytes more fill the block and leave it in the buffer. -/
theorem test_update_fills : ran statusWord { abcLatched with outv := false } 0x000003D2 0 0 = some 0x00002000 := by decide +kernel

/-- V-D3: the last chunk index, with room for 64 bytes after 1. -/
theorem test_update_last_chunk : ran statusWord (posState maxChunk 0 1 64) 0x00000402 0 0 = some 0x01004080 := by decide +kernel

/-- R88's example. -/
theorem test_finalize_abc : ran (fun t => (t.ocv, t.obl, t.oflg)) { State.reset with blen := 3 } 0x00000003 0 0 = some (IV, 3, 0x0B) := by
  decide +kernel

/-- R88: the last block of a chunk of several blocks. -/
theorem test_finalize_block : ran (fun t => (t.oflg, t.octr, t.outv)) { posState 0 1 1 0 with octr := 5 } 0x00000003 0 0 = some (0x0A, 0, true) := by
  decide +kernel

/-- V-C4: the first words of the digest of "abc". -/
theorem test_squeeze_abc : ran (fun t => (t.dout[0], t.dout[8])) abcLatched 0x00000004 0 0 = some (0xACB33764, 0xAE50B21F) := by
  decide +kernel

/-- V-O3: OCTR wraps. -/
theorem test_squeeze_wraps : ran (fun t => (t.octr, t.dvalid)) { abcLatched with octr := 0xFFFFFFFFFFFFFFFF } 0x00000004 0 0 = some (0, true) := by
  decide +kernel

theorem test_seek : ran (fun t => (t.octr, t.outv)) State.reset 0x00000005 0 0x0123456789ABCDEF = some (0x0123456789ABCDEF, false) := by
  decide +kernel

/-- V-C9: `LOADIV` sets RAWCV to the IV. -/
theorem test_loadcv_iv : ran State.rawcv { State.reset with rawcv := Vector.replicate 8 0 } 0x00000006 (busOf loadIvBytes) 0 = some IV := by
  decide +kernel

/-- V-C3: the first word and the first of the second half of the empty-input root. -/
theorem test_compress_empty : ran (fun t => (t.dout[0], t.dout[8])) State.reset 0x000B0007 0 0 = some (0xB94913AF, 0xE7030FE0) := by
  decide +kernel

/-- V-C5: the counter at its maximum; the first four bytes are 83f21481. -/
theorem test_compress_counter : ran (fun t => t.dout[0]) State.reset 0x000B0007 0 0xFFFFFFFFFFFFFFFF = some 0x8114F283 := by
  decide +kernel

theorem test_clrerr : ran statusWord { State.reset with err := true, errcode := 4 } 0x00000008 0 0 = some 0x00000040 := by decide +kernel

/-- V-C2, third row: the carries are discarded. -/
theorem test_mixG : (mixG (Vector.replicate 16 0xFFFFFFFF) 0 4 8 12 0xFFFFFFFF 0xFFFFFFFF)[4] = 0x3DB81BE4 := by decide +kernel

/-- R50's example: `616263` is the bytes 0x61, 0x62, 0x63 in lanes 0, 1, 2. -/
theorem test_readLine : readLine "UPDATE 3, 616263 ; abc".toList = some [.update 3 [0x61, 0x62, 0x63]] := by decide +kernel

/-- R51: the bytes of HASH as hex digits, and HASH of no bytes gives no command (log entry 7). -/
theorem test_readLine_hash : readLine "HASH 616263".toList = some [.update 3 [0x61, 0x62, 0x63]] ∧ readLine "HASH".toList = some [] := by
  decide +kernel

theorem test_assemble : assemble (.update 3 [0x61, 0x62, 0x63]) = some ⟨0x00000032, 0x636261, 0⟩ := by decide +kernel

/-! For every statement with hypotheses: a state and operands that meet them, clause by clause, at the edges of the ranges. -/

theorem witness_DecodeOfEncodeIsTheCommand : (Instr.update 0).wf = true ∧ (Instr.compress 64 0xFF).wf = true := by decide

theorem witness_EncodeOfDecodeIsTheWord : decode 0x00FF0407 = .cmd (.compress 64 0xFF) := by decide

/-- One word for each clause: OP 9; a bit of each reserved field; a bit of LEN and of FLG where unused; LEN 65; LEN 64. -/
theorem witness_DecodeMakesItsChecksInOrder :
    8 < (opField 0x00000009).toNat ∧ (opField 0x00000008).toNat ≤ 8 ∧
    rsvdLow 0x00000800 ≠ 0 ∧ rsvdHigh 0x01000002 ≠ 0 ∧
    (rsvdLow 0x00000010 = 0 ∧ rsvdHigh 0x00000010 = 0 ∧ lenField 0x00000010 ≠ 0) ∧
    (rsvdLow 0x00010002 = 0 ∧ lenField 0x00010002 = 0 ∧ flgField 0x00010002 ≠ 0) ∧
    (rsvdLow 0x00000412 = 0 ∧ rsvdHigh 0x00000412 = 0 ∧ flgField 0x00000412 = 0 ∧ (lenField 0x00000412).toNat = 65) ∧
    (rsvdLow 0x00FF0407 = 0 ∧ rsvdHigh 0x00FF0407 = 0 ∧ (lenField 0x00FF0407).toNat = 64) := by decide

/-- NOP with bit 4, UPDATE with bit 16, COMPRESS with bits 11 and 24, CLRERR with bit 31. -/
theorem witness_UnusedBitsMustBeZero :
    (0x00000010 : Word) &&& 0xFFFFFFF0 ≠ 0 ∧ (0x00010002 : Word) &&& 0xFFFFF800 ≠ 0 ∧ (0x00000807 : Word) &&& 0xFF00F800 ≠ 0 ∧
    (0x01000007 : Word) &&& 0xFF00F800 ≠ 0 ∧ (0x80000008 : Word) &&& 0xFFFFFFF0 ≠ 0 ∧ (opField 0x80000008).toNat ≤ 8 := by decide

theorem witness_ReservedOpcodesAreIllegal : 9 ≤ (opField 0x00000009).toNat ∧ 9 ≤ (opField 0xFFFFFFFF).toNat := by decide

/-- Each clause of LegalWords for UPDATE and COMPRESS, and LEN 65 and 127. -/
theorem witness_LenAbove64IsRefused :
    (opField 0x00010002 = 0x2 ∧ (0x00010002 : Word) &&& 0xFFFFF80F ≠ 0x2) ∧
    ((0x00000412 : Word) &&& 0xFFFFF80F = 0x2 ∧ 64 < (lenField 0x00000412).toNat) ∧
    ((0x00000402 : Word) &&& 0xFFFFF80F = 0x2 ∧ (lenField 0x00000402).toNat ≤ 64) ∧
    (opField 0x00000807 = 0x7 ∧ (0x00000807 : Word) &&& 0xFF00F80F ≠ 0x7) ∧
    ((0x00000417 : Word) &&& 0xFF00F80F = 0x7 ∧ 64 < (lenField 0x00000417).toNat) ∧
    ((0x00FF0407 : Word) &&& 0xFF00F80F = 0x7 ∧ (lenField 0x00FF0407).toNat ≤ 64) ∧
    64 < (65 : BlockLen).toNat ∧ 64 < (127 : BlockLen).toNat ∧
    (0x00000412 : Word) = 0x2 ||| ((65 : BlockLen).zeroExtend 32 <<< 4) ∧
    (0x00FF07F7 : Word) = 0x7 ||| ((127 : BlockLen).zeroExtend 32 <<< 4) ||| ((0xFF : Byte).zeroExtend 32 <<< 16) := by decide

theorem witness_AssembledLinesDecodeToTheirCommands :
    (64 ≤ 64 ∧ (List.replicate 64 (0 : Byte)).length = 64) ∧ 2 ^ 64 - 1 < 2 ^ 64 ∧ (List.replicate 32 (0 : Byte)).length = 32 ∧
    255 < 256 := by decide

theorem witness_HexTextReadsBack : (List.replicate 32 (0xAF : Byte)).length = 32 ∧ hexText [0xAF, 0x13] = "af13".toList := by decide +kernel

theorem witness_BusesAndWordsAreLittleEndian : ∃ t, exec .squeeze abcLatched = .next t := ⟨_, exec_squeeze rfl⟩

theorem witness_WordsAndBytesAreInverse :
    ([0x61, 0x62, 0x63, 0x64] : List Byte).length = 4 * 1 ∧ (List.replicate 64 (0 : Byte)).length ≤ 64 := by decide

/-- The words 0, 4, 8 and 12 are different; a rotation by 31. -/
theorem witness_QuarterRoundMixesFourWords :
    ([0, 4, 8, 12] : List (Fin 16)).Nodup ∧ 0 < 31 ∧ 31 < 32 ∧ (1 : Fin 16) ∉ ([0, 4, 8, 12] : List (Fin 16)) ∧
    (let s : Block := #v[1, 0, 0, 0, 2, 0, 0, 0, 3, 0, 0, 0, 4, 0, 0, 0]; s[0] = 1 ∧ s[4] = 2 ∧ s[8] = 3 ∧ s[12] = 4) := by decide

/-- The four applications of each half in the opposite order. -/
theorem witness_RoundHalvesMayRunInAnyOrder (m : Block) :
    List.Perm (columnMixes m).reverse (columnMixes m) ∧ List.Perm (diagonalMixes m).reverse (diagonalMixes m) :=
  ⟨List.reverse_perm _, List.reverse_perm _⟩

theorem witness_RoundsReadTheMessageSchedule :
    scheduleTable[6]? = some [11, 15, 5, 0, 1, 9, 8, 6, 14, 10, 2, 12, 3, 4, 7, 13] ∧
    ([11, 15, 5, 0, 1, 9, 8, 6, 14, 10, 2, 12, 3, 4, 7, 13] : List (Fin 16))[(15 : Fin 16).val]? = some 13 := ⟨rfl, rfl⟩

theorem witness_RefusalRecordsTheFirstCode : State.reset.err = false ∧ ({ State.reset with err := true } : State).err = true := ⟨rfl, rfl⟩

/-- A cause of each kind: the decoder's three, SQUEEZE without a root, UPDATE past the last chunk index. -/
theorem witness_RefusedCommandOnlyRecordsItsCode :
    refusalOf 0x00000009 State.reset = some .illegalOp ∧ refusalOf 0x00000010 State.reset = some .rsvdBits ∧
    refusalOf 0x00000412 State.reset = some .badLen ∧ refusalOf 0x00000004 State.reset = some .noOutput ∧
    refusalOf 0x00000012 (posState maxChunk 15 64 64) = some .ctrOvf := by decide +kernel

theorem witness_ExecutedCommandRecordsNothing : refusalOf 0x00000003 State.reset = none ∧ (3 : Word) ≠ 0x1 ∧ (3 : Word) ≠ 0x8 ∧
    ∃ t, runCommand ⟨3, 0, 0⟩ State.reset = .next t := ⟨by decide, by decide, by decide, _, rfl⟩

/-- A next state, and, in a state no run reaches, a fault. -/
theorem witness_ErrorRecordBlocksNothing : (∃ t, runCommand ⟨0, 0, 0⟩ State.reset = .next t) ∧
    runCommand ⟨3, 0, 0⟩ (posState 0 0 1 65) = .fault .stackIndex := ⟨⟨_, rfl⟩, rfl⟩

/-- Two states that differ in data and agree on control. -/
theorem witness_RefusalDependsOnControlAlone : let s := State.reset; let t : State := { s with cv := Vector.replicate 8 0, dout := Vector.replicate 16 1 }
    s.outv = t.outv ∧ s.chunk = t.chunk ∧ chunkLen s = chunkLen t := ⟨rfl, rfl, rfl⟩

/-- A word of each bare opcode that is not its legal word. -/
theorem witness_OnlyLegalWord :
    (opField 0x00000010 = 0x0 ∧ (0x00000010 : Word) ≠ 0x0) ∧ (opField 0x00000801 = 0x1 ∧ (0x00000801 : Word) ≠ 0x1) ∧
    (opField 0x00010003 = 0x3 ∧ (0x00010003 : Word) ≠ 0x3) ∧ (opField 0x80000004 = 0x4 ∧ (0x80000004 : Word) ≠ 0x4) ∧
    (opField 0x00000405 = 0x5 ∧ (0x00000405 : Word) ≠ 0x5) ∧ (opField 0x01000006 = 0x6 ∧ (0x01000006 : Word) ≠ 0x6) ∧
    (opField 0x00000018 = 0x8 ∧ (0x00000018 : Word) ≠ 0x8) := by decide

/-- The reset state and the last chunk index meet HashInv: at chunk_len 0, 1 and 1024. -/
theorem witness_HashInv : HashInv State.reset ∧ HashInv (posState maxChunk 0 1 64) ∧ HashInv (posState maxChunk 15 64 64) :=
  ⟨posState_inv 0 0 0 0 (by decide) (fun _ => ⟨rfl, rfl, rfl⟩) (by decide +kernel),
    posState_inv maxChunk 0 1 64 (by decide) (fun h => absurd h (by decide)) (by decide +kernel),
    posState_inv maxChunk 15 64 64 (by decide) (fun h => absurd h (by decide)) (by decide +kernel)⟩

/-- UPDATE 64 from reset, UPDATE 64 at one byte of the last chunk, and UPDATE 0 at its end. -/
theorem witness_UpdateCompletes :
    (64 : BlockLen).toNat ≤ 64 ∧ ¬(State.reset.chunk.toNat = 2 ^ 64 - 1 ∧ 1024 < chunkLen State.reset + (64 : BlockLen).toNat) ∧
    ¬((posState maxChunk 0 1 64).chunk.toNat = 2 ^ 64 - 1 ∧ 1024 < chunkLen (posState maxChunk 0 1 64) + (64 : BlockLen).toNat) ∧
    ¬((posState maxChunk 15 64 64).chunk.toNat = 2 ^ 64 - 1 ∧ 1024 < chunkLen (posState maxChunk 15 64 64) + (0 : BlockLen).toNat) := by
  decide +kernel

theorem witness_UpdateAbsorbsLaneByLane : HashInv (posState maxChunk 0 1 64) ∧
    ¬((posState maxChunk 0 1 64).chunk.toNat = 2 ^ 64 - 1 ∧ 1024 < chunkLen (posState maxChunk 0 1 64) + (63 + 1)) :=
  ⟨witness_HashInv.2.1, by decide +kernel⟩

/-- One byte more than the last chunk holds, and none. -/
theorem witness_UpdateOverflowIsRefusedWhole :
    ((posState maxChunk 15 64 64).chunk.toNat = 2 ^ 64 - 1 ∧ 1024 < chunkLen (posState maxChunk 15 64 64) + (1 : BlockLen).toNat) ∧
    ∃ t, exec (.update 0) (posState maxChunk 15 64 64) = .next t := ⟨by decide +kernel, _, rfl⟩

theorem witness_AbsorbByteCompressesOnlyAFullBuffer :
    (posState 0 0 64 0).blen = 64 ∧ (posState 0 0 63 0).blen.toNat < 64 := ⟨rfl, by decide⟩

/-- Chunk 1 ends: one merge. Chunk 0 ends: none. -/
theorem witness_PushMergesOncePerTrailingZero :
    HashInv (posState 1 15 64 1) ∧ (posState 1 15 64 1).chunk.toNat < 2 ^ 64 - 1 ∧
    2 ^ 1 ∣ (posState 1 15 64 1).chunk.toNat + 1 ∧ ¬2 ^ (1 + 1) ∣ (posState 1 15 64 1).chunk.toNat + 1 ∧
    2 ^ 0 ∣ (posState 0 15 64 0).chunk.toNat + 1 ∧ ¬2 ^ (0 + 1) ∣ (posState 0 15 64 0).chunk.toNat + 1 :=
  ⟨posState_inv 1 15 64 1 (by decide) (fun h => absurd h (by decide)) (by decide +kernel), by decide +kernel⟩

theorem witness_CloseChunkStartsTheNextChunk : HashInv (posState 1 15 64 1) ∧ (posState 1 15 64 1).chunk.toNat < 2 ^ 64 - 1 :=
  ⟨witness_PushMergesOncePerTrailingZero.1, by decide⟩

theorem witness_RootNodeFoldsTheStack : (posState maxChunk 0 1 64).sp.toNat ≤ 64 := by decide

theorem witness_FinalizeIsNotConsuming : leavesStream 0x0 = true ∧ leavesStream 0x00000412 = true ∧
    ∃ t u v, runCommands [⟨0, 0, 0⟩] State.reset = .next t ∧ exec .finalize State.reset = .next u ∧ exec .finalize t = .next v :=
  ⟨by decide, by decide, _, _, _, rfl, rfl, rfl⟩

theorem witness_SqueezeProducesTheNextSegment : abcLatched.outv = true ∧ State.reset.outv = false := ⟨rfl, rfl⟩

theorem witness_SqueezesReadTheOutputStream : abcLatched.outv = true ∧ abcLatched.octr = 0 ∧ 0 < 2 ^ 64 := ⟨rfl, rfl, by decide⟩

theorem witness_SeekSetsTheOutputCounter : (∃ t, exec .finalize State.reset = .next t) ∧
    ∃ t u v, abcLatched.outv = true ∧ abcLatched.octr = 0 ∧ abcLatched.aux = BitVec.ofNat 64 0 ∧ squeezeTimes (0 + 1) abcLatched = .next t ∧
      exec .seek abcLatched = .next u ∧ exec .squeeze u = .next v :=
  ⟨⟨_, rfl⟩, _, _, _, rfl, rfl, rfl, exec_squeeze rfl, rfl, exec_squeeze rfl⟩

theorem witness_CompressRunsTheRawFunction : (64 : BlockLen).toNat ≤ 64 ∧ (0 : BlockLen).toNat ≤ 64 := by decide

/-- The "abc" root with its own inputs given to COMPRESS. -/
theorem witness_CompressReproducesSqueeze : let s : State := { abcLatched with din := busOf (bytesOf abcLatched.oblk) }
    s.outv = true ∧ s.obl.toNat ≤ 64 ∧ s.oflg.toNat < 256 ∧ s.rawcv = s.ocv ∧ s.din = busOf (bytesOf s.oblk) ∧ s.aux = s.octr ∧
    (∃ t, exec .squeeze s = .next t) ∧ ∃ u, exec (.compress s.obl (s.oflg.truncate 8)) s = .next u :=
  ⟨rfl, by decide, by decide, rfl, rfl, rfl, ⟨_, exec_squeeze rfl⟩, _, exec_compress _ _ (by decide)⟩

theorem witness_EachRegisterHasItsWriters : (∃ t, exec .finalize State.reset = .next t) ∧ Instr.finalize ≠ .reset :=
  ⟨⟨_, rfl⟩, by decide⟩

theorem witness_StepRunsTheDecodedCommand : (State.reset.withFetchWord 32 0x5).queue = ⟨5, 0, 0⟩ :: [] ∧ decode 5 = .cmd .seek ∧
    decode 9 = .refuse .illegalOp := ⟨rfl, by decide, by decide⟩

theorem witness_StepsConsumeTheSequenceInOrder : State.reset.queue = [] ∧ (∃ t, step (State.reset.withFetchWord 32 0) = .next t) ∧
    (State.reset.withFetchWord 32 0).queue = [⟨0, 0, 0⟩] ++ [] := ⟨rfl, ⟨_, rfl⟩, rfl⟩

/-- The reset state meets the invariant, and offering it a command keeps that. -/
theorem witness_StepKeepsTheInvariant : Inv (State.reset.withFetchWord 32 0) ∧ ∃ t, step (State.reset.withFetchWord 32 0) = .next t :=
  ⟨⟨⟨by decide, witness_HashInv.1.blk_zero, fun _ => ⟨rfl, rfl, rfl⟩, by decide⟩, (fun h => by cases h), fun _ => rfl, fun h => by cases h⟩,
    _, rfl⟩

theorem witness_EveryOfferedCommandCompletes : HashInv (State.reset.offerNext ⟨3, 0, 0⟩) ∧
    (State.reset.offerNext ⟨3, 0, 0⟩).queue = ⟨3, 0, 0⟩ :: [] :=
  ⟨⟨witness_HashInv.1.1, witness_HashInv.1.2, witness_HashInv.1.3, witness_HashInv.1.4⟩, rfl⟩

theorem absorbed_none : Absorbed [] (State.reset.offerNext ⟨0x00000032, abcBus, 0⟩) := by
  refine ⟨?_, ?_, ?_, ?_, ?_, ?_, ?_⟩ <;> decide

theorem witness_StepFollowsTheStream : Absorbed [] (State.reset.offerNext ⟨0x00000032, abcBus, 0⟩) ∧
    RootLatched [] (State.reset.offerNext ⟨0x00000032, abcBus, 0⟩) ∧
    ∃ t, step (State.reset.offerNext ⟨0x00000032, abcBus, 0⟩) = .next t := ⟨absorbed_none, (fun h => by cases h), _, rfl⟩

theorem witness_FinalizeThenSqueezeGivesTheHash : ∃ t, absorbAll [0x61, 0x62, 0x63] (State.reset.offerNext ⟨0x00000032, abcBus, 0⟩) = .ok t ∧
    Absorbed [0x61, 0x62, 0x63] t := by
  refine ⟨_, rfl, absorbAll_absorbed (data := []) absorbed_none ?_ rfl⟩
  decide +kernel

/-- "abc" in one UPDATE, and in three with an empty one among them; other bytes above LEN, and an `aux` that is not zero. -/
def abcWhole : List Command := [⟨0x00000032, 0xFF636261, 7⟩]
def abcSplit : List Command := [⟨0x00000012, 0x61, 0⟩, ⟨0x00000002, 0xFF, 1⟩, ⟨0x00000022, 0xEE6362, 2⟩]

theorem witness_SplitOfTheInputDoesNotMatter : HashInv State.reset ∧ (∀ c ∈ abcWhole, IsUpdate c) ∧ (∀ e ∈ abcSplit, IsUpdate e) ∧
    abcWhole.flatMap updateBytes = abcSplit.flatMap updateBytes ∧ abcWhole ≠ [] ∧ abcSplit ≠ [] ∧
    1024 * State.reset.chunk.toNat + chunkLen State.reset + (abcWhole.flatMap updateBytes).length ≤ 2 ^ 74 := by
  refine ⟨witness_HashInv.1, ?_, ?_, by decide +kernel, by decide, by decide, by decide +kernel⟩
  · intro c hc
    rw [List.mem_singleton.mp hc]
    exact ⟨3, by decide⟩
  · intro e he
    simp only [abcSplit, List.mem_cons, List.not_mem_nil, or_false] at he
    rcases he with rfl | rfl | rfl
    exacts [⟨1, by decide⟩, ⟨0, by decide⟩, ⟨2, by decide⟩]

/-- The carried bytes are those of the low lanes alone (R34, R39). -/
theorem test_updateBytes : abcSplit.flatMap updateBytes = [0x61, 0x62, 0x63] := by decide +kernel

/-- Two states that differ in what no host can see: a free stack entry and the output node while OUTV = 0. -/
theorem witness_UnobservableRegistersStayHidden :
    SameObservable State.reset { State.reset with stk := State.reset.stk.set 63 IV, oflg := 0xFF } :=
  ⟨rfl, fun j _ hj => absurd hj (by show ¬ j < (0 : BitVec 7).toNat; simp), fun h => by cases h⟩

/-! The clock level. -/

def pinsNop : Pins := ⟨true, true, 0, 0, 0⟩
def pinsReset : Pins := ⟨false, true, 0, 0, 0⟩

theorem witness_ResetEdgeLoadsTheResetValues : pinsReset.rstN = false ∧ pinsNop.rstN = true := ⟨rfl, rfl⟩

/-- Latencies are open: for whatever LAT_NOP is, a list of edges of the right length, and for a latency above 1 a shorter one. -/
theorem witness_AcceptedCommandCompletesAfterItsLatency : (∃ t, runCommand pinsNop.command State.reset = .next t) ∧
    (List.replicate (Config.extraNop (latencyKey 0 State.reset)) pinsNop).length + 1 = latency pinsNop.cmd State.reset ∧
    (∀ q ∈ List.replicate (Config.extraNop (latencyKey 0 State.reset)) pinsNop, q.rstN = true) ∧
    (1 < latency pinsNop.cmd State.reset → ([] : List Pins).length + 1 < latency pinsNop.cmd State.reset) :=
  ⟨⟨_, rfl⟩, by rw [List.length_replicate]; rfl, fun q h => by rw [(List.mem_replicate.mp h).2]; rfl, id⟩

theorem witness_PortsHoldWhileACommandExecutes : pinsNop.rstN = true ∧ ∃ t, runCommand ⟨0, 0, 0⟩ State.reset = .next t := ⟨rfl, _, rfl⟩

/-- Two UPDATEs with other data in a state with another chaining value; two SQUEEZEs. -/
theorem witness_LatencyDependsOnNoData : let s := State.reset; let t : State := { s with cv := Vector.replicate 8 0, din := 1 }
    opField 0x32 = opField 0x32 ∧ s.blen = t.blen ∧ s.bcnt = t.bcnt ∧ s.chunk = t.chunk ∧ s.sp = t.sp ∧
    (refusalOf 0x32 s).isSome = (refusalOf 0x32 t).isSome ∧ opField 0x4 = 0x4 ∧ refusalOf 0x4 abcLatched = none :=
  ⟨rfl, rfl, rfl, rfl, rfl, rfl, rfl, by decide⟩

/-- A run of idle edges, and one whose command completes at its last edge. -/
theorem witness_ClockedRunIsItsAcceptedCommands :
    (∃ t, edges [⟨true, false, 0, 0, 0⟩] (.idle State.reset) = .next (.idle t)) ∧
    ∃ ps t, (∀ p ∈ ps, Pins.rstN p = true) ∧ edges (pinsNop :: ps) (.idle State.reset) = .next (.idle t) := by
  refine ⟨⟨_, rfl⟩, List.replicate (Config.extraNop (latencyKey 0 State.reset)) pinsNop, State.reset.accept ⟨0, 0, 0⟩,
    fun q h => by rw [(List.mem_replicate.mp h).2]; rfl, ?_⟩
  show (match startCommand ⟨0, 0, 0⟩ State.reset with | .next k' => edges _ k' | .fault f => .fault f | .refused r => .refused r) = _
  have hx : latencyExtra 0 State.reset = Config.extraNop (latencyKey 0 State.reset) := rfl
  rw [startCommand, hx]
  generalize Config.extraNop (latencyKey 0 State.reset) = n
  cases n with
  | zero => rfl
  | succ left =>
    exact (edges_busy _ _ _ _ fun q h => by rw [(List.mem_replicate.mp h).2]; rfl).2 _ (by simp) rfl

theorem witness_KeptOfferIsAccepted : HashInv State.reset ∧ pinsNop.rstN = true ∧ pinsNop.cmdValid = true := ⟨witness_HashInv.1, rfl, rfl⟩

theorem witness_OnlyResetRestoresALostCore : pinsNop.rstN = true ∧ pinsReset.rstN = false := ⟨rfl, rfl⟩

end Sys2Proof.Tests
end

section
/-! PROOF. What one step can do, said once: the inversion of `step` and `exec`, and which commands leave the absorbed stream and the
latched root as they are. -/

namespace Sys2Proof.Machine

open Sys2Proof.Claims

/-! One step is the next command run on the state in which it starts (R29, R116). -/

theorem step_of_queue_nil {s : State} (h : s.queue = []) : step s = .refused .noCommand := by
  rw [step, h]

theorem step_of_queue_cons {s : State} {c : Command} {rest : List Command} (h : s.queue = c :: rest) :
    step s = runDecoded (decode c.cmd) (started s c rest) := by
  rw [step, h]; rfl

/-- A step that answers took a command, which the decoder refused or which executed. -/
theorem step_next_cases {s t : State} (h : step s = .next t) : ∃ c rest, s.queue = c :: rest ∧
    ((∃ e, decode c.cmd = .refuse e ∧ t = (started s c rest).refuse e) ∨
      ∃ i, decode c.cmd = .cmd i ∧ exec i (started s c rest) = .next t) := by
  cases hq : s.queue with
  | nil => rw [step_of_queue_nil hq] at h; cases h
  | cons c rest =>
    rw [step_of_queue_cons hq] at h
    refine ⟨c, rest, rfl, ?_⟩
    cases hd : decode c.cmd with
    | cmd i => rw [hd] at h; exact .inr ⟨i, rfl, h⟩
    | refuse e => rw [hd] at h; cases h; exact .inl ⟨e, rfl, rfl⟩

/-! The effect of each command. -/

/-- `Effect s i t`: the command `i` in the state `s` is refused by the state or executes, and leaves `t` (R64, R65, R82 to R92, R98). -/
inductive Effect (s : State) : Instr → State → Prop
  | refused {i : Instr} {e : ErrCode} (h : stateRefusal i s = some e) : Effect s i (s.refuse e)
  | nop : Effect s .nop s
  | reset : Effect s .reset s.loadReset
  | update {len : BlockLen} {u : State} (hr : updateRefusal len s = none) (h : absorbAll (updateData s.din len) s = .ok u) :
      Effect s (.update len) { u with outv := false }
  | finalize {n : Node} (h : rootNode s = .ok n) : Effect s .finalize (latchRoot s n)
  | squeeze (ho : s.outv = true) : Effect s .squeeze { s with dout := segmentWords s s.octr, octr := s.octr + 1, dvalid := true }
  | seek : Effect s .seek { s with octr := s.aux }
  | loadcv : Effect s .loadcv { s with rawcv := loadcvOperand s.din }
  | compress {len : BlockLen} {flg : Byte} (hl : len.toNat ≤ 64) : Effect s (.compress len flg)
      { s with dout := compress s.rawcv (compressOperand s.din) s.aux len (flgWord flg), dvalid := true }
  | clrerr : Effect s .clrerr s.clearError

/-- A SQUEEZE that the state does not refuse finds OUTV set (R91). -/
theorem outv_of_squeeze {s : State} (h : stateRefusal .squeeze s = none) : s.outv = true := by
  cases ho : s.outv with
  | true => rfl
  | false => simp [stateRefusal, ho] at h

/-- A COMPRESS that is not refused has a legal LEN (R44). -/
theorem len_le_of_compress {len : BlockLen} {flg : Byte} {s : State} (h : stateRefusal (.compress len flg) s = none) : len.toNat ≤ 64 := by
  by_contra hl
  simp [stateRefusal, lenLegal_false (Nat.lt_of_not_le hl)] at h

/-- Whatever `exec` answers is the command's effect. -/
theorem effect_of_exec {i : Instr} {s t : State} (h : exec i s = .next t) : Effect s i t := by
  cases hr : stateRefusal i s with
  | some e => rw [exec_of_stateRefusal hr] at h; cases h; exact .refused hr
  | none =>
    cases i with
    | nop => cases h; exact .nop
    | reset => cases h; exact .reset
    | update len =>
      have hr : updateRefusal len s = none := hr
      simp only [exec, execUpdate, hr] at h
      cases ha : absorbAll (updateData s.din len) s with
      | error f => rw [ha] at h; cases h
      | ok u => rw [ha] at h; cases h; exact .update hr ha
    | finalize =>
      cases hn : rootNode s with
      | error f => simp only [exec, execFinalize, hn] at h; cases h
      | ok n => rw [exec_finalize hn] at h; cases h; exact .finalize hn
    | squeeze =>
      have ho := outv_of_squeeze hr
      rw [exec_squeeze ho] at h; cases h; exact .squeeze ho
    | seek => cases h; exact .seek
    | loadcv => cases h; exact .loadcv
    | compress len flg =>
      have hl := len_le_of_compress hr
      rw [exec_compress flg s hl] at h; cases h; exact .compress hl
    | clrerr => cases h; exact .clrerr

/-- No command writes the sampled operands, the host's sequence or the position (R29, R33). -/
theorem Effect.keeps_sequence {s t : State} {i : Instr} (h : Effect s i t) :
    t.queue = s.queue ∧ t.pos = s.pos ∧ t.cmd = s.cmd ∧ t.din = s.din ∧ t.aux = s.aux := by
  cases h with
  | refused => simp
  | update _ ha => rw [absorbAll_frame ha]; exact ⟨rfl, rfl, rfl, rfl, rfl⟩
  | nop | reset | finalize | squeeze | seek | loadcv | compress | clrerr => exact ⟨rfl, rfl, rfl, rfl, rfl⟩

/-! Which commands leave the stream alone. -/

/-- `t` has the hash registers, OUTV and the output node registers of `s`. -/
structure KeepsStream (s t : State) : Prop where
  hash : HashAgree True s t
  outv : t.outv = s.outv
  ocv  : t.ocv = s.ocv
  oblk : t.oblk = s.oblk
  obl  : t.obl = s.obl
  oflg : t.oflg = s.oflg

/-- `t` keeps the stream of `s` when writing those registers of `s` into `t` changes nothing. -/
theorem keepsStream_of_eq {s t : State}
    (h : { t.withHashOf s with outv := s.outv, ocv := s.ocv, oblk := s.oblk, obl := s.obl, oflg := s.oflg } = t) : KeepsStream s t := by
  rw [← h]
  exact ⟨⟨rfl, rfl, rfl, rfl, rfl, rfl, fun _ _ _ => rfl⟩, rfl, rfl, rfl, rfl, rfl⟩

theorem keepsStream_started (s : State) (c : Command) (rest : List Command) : KeepsStream s (started s c rest) :=
  keepsStream_of_eq rfl

theorem keepsStream_refuse (s : State) (e : ErrCode) : KeepsStream s (s.refuse e) :=
  keepsStream_of_eq (by rw [refuse_form s e]; rfl)

theorem KeepsStream.holdsRoot {s t : State} (h : KeepsStream s t) {n : Node} (hn : HoldsRoot s n) : HoldsRoot t n :=
  ⟨h.ocv.trans hn.cv, h.oblk.trans hn.block, h.obl.trans hn.len, h.oflg.trans hn.flags⟩

theorem hashAgree_latchRoot (s : State) (n : Node) : HashAgree True s (latchRoot s n) :=
  ⟨rfl, rfl, rfl, rfl, rfl, rfl, fun _ _ _ => rfl⟩

theorem holdsRoot_latchRoot (s : State) (n : Node) : HoldsRoot (latchRoot s n) n := ⟨rfl, rfl, rfl, rfl⟩

/-- Three commands touch the stream or the latched root: RESET, an UPDATE that executes, and FINALIZE. -/
theorem Effect.stream_cases {s t : State} {i : Instr} (h : Effect s i t) :
    (KeepsStream s t ∧ i ≠ .reset ∧ ∀ len, i = .update len → updateRefusal len s ≠ none) ∨
    (i = .reset ∧ t = s.loadReset) ∨
    (∃ len u, i = .update len ∧ updateRefusal len s = none ∧ absorbAll (updateData s.din len) s = .ok u ∧
      t = { u with outv := false }) ∨
    (i = .finalize ∧ ∃ n, rootNode s = .ok n ∧ t = latchRoot s n) := by
  cases h with
  | refused hr =>
    refine .inl ⟨keepsStream_refuse s _, ?_, ?_⟩
    · rintro rfl; cases hr
    · rintro len rfl hn; cases hn.symm.trans hr
  | reset => exact .inr (.inl ⟨rfl, rfl⟩)
  | update hr ha => exact .inr (.inr (.inl ⟨_, _, rfl, hr, ha, rfl⟩))
  | finalize hn => exact .inr (.inr (.inr ⟨rfl, _, hn, rfl⟩))
  | nop | squeeze | seek | loadcv | compress | clrerr =>
    exact .inl ⟨keepsStream_of_eq rfl, nofun, nofun⟩

end Sys2Proof.Machine
end

section
/-! PROOF. The invariant of the registers: what keeps it, and that every step does (R12 to R25). -/

namespace Sys2Proof.Machine

open Sys2Proof.Claims

/-! The chunk processor and the stack. -/

theorem KeepsStream.hashInv {s t : State} (h : KeepsStream s t) (hs : HashInv s) : HashInv t := by
  obtain ⟨⟨-, hblk, hblen, hbcnt, hchunk, hsp, -⟩, -⟩ := h
  exact ⟨hblen ▸ hs.blen_le, hblk ▸ hblen ▸ hs.blk_zero, hblen ▸ hbcnt ▸ hchunk ▸ hsp ▸ hs.empty, hsp ▸ hchunk ▸ hs.sp_ones⟩

theorem hashInv_setOutv {s : State} (h : HashInv s) (b : Bool) : HashInv { s with outv := b } :=
  ⟨h.blen_le, h.blk_zero, h.empty, h.sp_ones⟩

/-- A state with nothing in the block buffer and nothing on the stack, at chunk 0, meets the invariant (R15). -/
theorem hashInv_of_empty {s : State} (hblk : s.blk = zeroBlk) (hblen : s.blen = 0) (hbcnt : s.bcnt = 0) (hchunk : s.chunk = 0)
    (hsp : s.sp = 0) : HashInv s where
  blen_le := by simp [hblen]
  blk_zero i hi _ := by simp [hblk, zeroBlk]
  empty _ := ⟨hbcnt, hchunk, hsp⟩
  sp_ones := by simp [hsp, hchunk, onesCount_zero]

/-- An UPDATE that is not refused runs its loop to the end and keeps the invariant (R84, R85). -/
theorem absorbAll_update {len : BlockLen} {s : State} (hs : HashInv s) (hr : updateRefusal len s = none) :
    ∃ u, absorbAll (updateData s.din len) s = .ok u ∧ HashInv u := by
  obtain ⟨hlen, -, hovf⟩ := updateRefusal_eq_none hr
  exact absorbAll_inv _ hs (by rw [updateData_length]; exact room_of_no_overflow hs hlen hovf)

/-! The latched root node and the error record. -/

/-- While OUTV is set, the output node registers hold the root node of the hash registers (R20). -/
def RootInv (s : State) : Prop := s.outv = true → ∃ n, rootNode s = .ok n ∧ HoldsRoot s n

/-- ERRCODE is 0 while ERR is clear and one of 1 to 5 while it is set (R25, R99). -/
def ErrInv (s : State) : Prop := (s.err = false → s.errcode = 0) ∧ (s.err = true → 1 ≤ s.errcode.toNat ∧ s.errcode.toNat ≤ 5)

theorem inv_iff (s : State) : Inv s ↔ HashInv s ∧ RootInv s ∧ ErrInv s :=
  ⟨fun ⟨hh, hr, h0, h1⟩ => ⟨hh, hr, h0, h1⟩, fun ⟨hh, hr, h0, h1⟩ => ⟨hh, hr, h0, h1⟩⟩

theorem KeepsStream.rootInv {s t : State} (h : KeepsStream s t) (hs : RootInv s) : RootInv t := by
  intro ho
  obtain ⟨n, hn, hh⟩ := hs (h.outv ▸ ho)
  exact ⟨n, rootNode_agree h.hash ▸ hn, h.holdsRoot hh⟩

theorem rootInv_latchRoot {s : State} {n : Node} (hn : rootNode s = .ok n) : RootInv (latchRoot s n) :=
  fun _ => ⟨n, rootNode_agree (hashAgree_latchRoot s n) ▸ hn, holdsRoot_latchRoot s n⟩

theorem errInv_of_clear {s : State} (h : s.err = false) (h' : s.errcode = 0) : ErrInv s :=
  ⟨fun _ => h', fun ht => by simp [h] at ht⟩

theorem ErrInv.of_eq {s t : State} (hs : ErrInv s) (h : t.err = s.err ∧ t.errcode = s.errcode) : ErrInv t := by
  obtain ⟨he, hc⟩ := h
  rw [ErrInv, he, hc]; exact hs

/-- Recording a refusal keeps the first code, or writes one of the five (R99, R100). -/
theorem ErrInv.refuse {s : State} (hs : ErrInv s) (e : ErrCode) : ErrInv (s.refuse e) := by
  cases he : s.err with
  | true => rw [State.refuse_again s e he]; exact hs
  | false => rw [State.refuse_first s e he]; exact ⟨nofun, fun _ => errBits_range e⟩

/-! Every command keeps each part. -/

/-- The hash registers and the latched root: RESET empties them, UPDATE clears OUTV, FINALIZE latches what RootNode answers. -/
theorem Effect.keeps_hash_root {s t : State} {i : Instr} (h : Effect s i t) (hh : HashInv s) (hr : RootInv s) :
    HashInv t ∧ RootInv t := by
  rcases h.stream_cases with ⟨hk, -, -⟩ | ⟨-, rfl⟩ | ⟨len, u, -, hn, hu, rfl⟩ | ⟨-, n, hn, rfl⟩
  · exact ⟨hk.hashInv hh, hk.rootInv hr⟩
  · exact ⟨hashInv_of_empty rfl rfl rfl rfl rfl, nofun⟩
  · obtain ⟨v, hv, hvi⟩ := absorbAll_update hh hn
    cases hu.symm.trans hv
    exact ⟨hashInv_setOutv hvi false, nofun⟩
  · exact ⟨⟨hh.blen_le, hh.blk_zero, hh.empty, hh.sp_ones⟩, rootInv_latchRoot hn⟩

theorem Effect.keeps_errInv {s t : State} {i : Instr} (h : Effect s i t) (hs : ErrInv s) : ErrInv t := by
  cases h with
  | refused => exact hs.refuse _
  | reset | clrerr => exact errInv_of_clear rfl rfl
  | update _ ha => exact hs.of_eq (by rw [absorbAll_frame ha]; exact ⟨rfl, rfl⟩)
  | nop | finalize | squeeze | seek | loadcv | compress => exact hs.of_eq ⟨rfl, rfl⟩

theorem Effect.keeps_inv {s t : State} {i : Instr} (h : Effect s i t) (hs : Inv s) : Inv t := by
  obtain ⟨hh, hr, he⟩ := (inv_iff s).mp hs
  obtain ⟨hh', hr'⟩ := h.keeps_hash_root hh hr
  exact (inv_iff t).mpr ⟨hh', hr', h.keeps_errInv he⟩

theorem inv_started {s : State} (hs : Inv s) (c : Command) (rest : List Command) : Inv (started s c rest) := by
  obtain ⟨hh, hr, he⟩ := (inv_iff s).mp hs
  have hk := keepsStream_started s c rest
  exact (inv_iff _).mpr ⟨hk.hashInv hh, hk.rootInv hr, he⟩

theorem inv_refuse {s : State} (hs : Inv s) (e : ErrCode) : Inv (s.refuse e) := by
  obtain ⟨hh, hr, he⟩ := (inv_iff s).mp hs
  have hk := keepsStream_refuse s e
  exact (inv_iff _).mpr ⟨hk.hashInv hh, hk.rootInv hr, he.refuse e⟩

/-- Settles O47: sampling the operands keeps the invariant, and so does recording the decoder's refusal or the command's effect. -/
theorem stepKeepsTheInvariant : Obligations.StepKeepsTheInvariant := by
  intro s t hs hstep
  obtain ⟨c, rest, -, ⟨e, -, rfl⟩ | ⟨i, -, hx⟩⟩ := step_next_cases hstep
  · exact inv_refuse (inv_started hs c rest) e
  · exact (effect_of_exec hx).keeps_inv (inv_started hs c rest)

/-- Settles O46: at reset the hash registers are empty, OUTV and ERR are clear. -/
theorem resetMeetsTheInvariant : Obligations.ResetMeetsTheInvariant :=
  (inv_iff _).mpr ⟨hashInv_of_empty rfl rfl rfl rfl rfl, nofun, errInv_of_clear rfl rfl⟩

/-! No command the host offers stops the core. -/

theorem exec_completes {s : State} (hs : HashInv s) (i : Instr) : ∃ t, exec i s = .next t := by
  cases hr : stateRefusal i s with
  | some e => exact ⟨_, exec_of_stateRefusal hr⟩
  | none =>
    cases i with
    | nop | reset | seek | loadcv | clrerr => exact ⟨_, rfl⟩
    | update len =>
      have hr : updateRefusal len s = none := hr
      obtain ⟨u, hu, -⟩ := absorbAll_update hs hr
      exact ⟨{ u with outv := false }, by simp only [exec, execUpdate, hr, hu]⟩
    | finalize => exact ⟨_, exec_finalize (rootNode_eq s (sp_le_of_hashInv hs))⟩
    | squeeze => exact ⟨_, exec_squeeze (outv_of_squeeze hr)⟩
    | compress len flg => exact ⟨_, exec_compress flg s (len_le_of_compress hr)⟩

/-- Settles O48: a word the decoder refuses is recorded, and a command executes or is refused by the state. -/
theorem everyOfferedCommandCompletes : Obligations.EveryOfferedCommandCompletes := by
  intro s c rest hs hq
  rw [step_of_queue_cons hq]
  cases decode c.cmd with
  | cmd i => exact exec_completes ((keepsStream_started s c rest).hashInv hs) i
  | refuse e => exact ⟨_, rfl⟩

end Sys2Proof.Machine
end

section
/-! PROOF. The hash registers and a latched root node as functions of the bytes absorbed since reset (R19, R20, R71 to R74, R86). -/

namespace Sys2Proof.Machine

open Sys2Proof.Claims

theorem KeepsStream.absorbed {data : List Byte} {s t : State} (h : KeepsStream s t) (hs : Absorbed data s) : Absorbed data t :=
  absorbed_of_agree h.hash hs

theorem KeepsStream.rootLatched {data : List Byte} {s t : State} (h : KeepsStream s t) (hs : RootLatched data s) : RootLatched data t :=
  fun ho => h.holdsRoot (hs (h.outv ▸ ho))

/-- The reset values of the hash registers are those of the empty stream (R74, R83). -/
theorem absorbed_nil_loadReset (s : State) : Absorbed [] s.loadReset := by
  have hpeaks : refPeaks (refCurrent []) = [] := by
    rw [show refCurrent ([] : List Byte) = 0 from rfl, refPeaks_eq_peaksUp, peaksUp_zero]
  refine ⟨rfl, rfl, rfl, rfl, rfl, ?_, ?_⟩
  · rw [refStack, hpeaks]; rfl
  · rw [hpeaks]; rfl

/-- An UPDATE that is not refused appends its bytes to the stream (R84, R86). -/
theorem absorbed_update {data : List Byte} {len : BlockLen} {s u : State} (hs : Absorbed data s) (hr : updateRefusal len s = none)
    (hu : absorbAll (updateData s.din len) s = .ok u) : Absorbed (data ++ updateData s.din len) { u with outv := false } := by
  obtain ⟨hlen, -, hovf⟩ := updateRefusal_eq_none hr
  have hroom := room_of_no_overflow (hashInv_of_absorbed hs) hlen hovf
  obtain ⟨h1, h2, h3, h4, h5, h6, h7⟩ := absorbAll_absorbed hs (by rw [updateData_length]; exact hroom) hu
  exact ⟨h1, h2, h3, h4, h5, h6, h7⟩

theorem absorbed_latchRoot {data : List Byte} {s : State} (hs : Absorbed data s) (n : Node) : Absorbed data (latchRoot s n) :=
  absorbed_of_agree (hashAgree_latchRoot s n) hs

/-! What a command adds to the stream (R83 to R85). -/

theorem dataAfter_refuse {c : Command} {e : ErrCode} (h : decode c.cmd = .refuse e) (s : State) (data : List Byte) :
    dataAfter c s data = data := by rw [dataAfter, h]

theorem dataAfter_reset {c : Command} (h : decode c.cmd = .cmd .reset) (s : State) (data : List Byte) : dataAfter c s data = [] := by
  rw [dataAfter, h]

theorem dataAfter_update {c : Command} {len : BlockLen} {s : State} (h : decode c.cmd = .cmd (.update len))
    (hr : updateRefusal len s = none) (data : List Byte) : dataAfter c s data = data ++ updateData c.din len := by
  obtain ⟨-, hovf, -⟩ := updateRefusal_eq_none hr
  simp [dataAfter, h, hovf]

/-- A decoded UPDATE has a legal LEN, so that the counter overflow is the one cause left for its refusal (R44, R101). -/
theorem ctrOverflow_of_refused {w : Word} {len : BlockLen} {s : State} (h : decode w = .cmd (.update len))
    (hr : updateRefusal len s ≠ none) : ctrOverflow len s = true := by
  obtain ⟨-, -, -, -, -, hwf⟩ := decode_cmd_fields h
  obtain ⟨e, he⟩ := Option.ne_none_iff_exists'.mp hr
  rcases updateRefusal_some he with ⟨-, hlen⟩ | ⟨-, -, hovf⟩
  · cases hlen.symm.trans hwf
  · exact hovf

theorem dataAfter_of_ne {c : Command} {i : Instr} {s : State} (h : decode c.cmd = .cmd i) (hi : i ≠ .reset)
    (hu : ∀ len, i = .update len → updateRefusal len s ≠ none) (data : List Byte) : dataAfter c s data = data := by
  cases i with
  | reset => exact absurd rfl hi
  | update len => simp [dataAfter, h, ctrOverflow_of_refused h (hu len rfl)]
  | nop | finalize | squeeze | seek | loadcv | compress | clrerr => rw [dataAfter, h]

/-- A decoded command leads from the stream `data` to the stream with what the command adds. -/
theorem Effect.follows_stream {data : List Byte} {s t : State} {i : Instr} {c : Command} (h : Effect s i t) (hd : decode c.cmd = .cmd i)
    (hdin : s.din = c.din) (ha : Absorbed data s) (hl : RootLatched data s) :
    Absorbed (dataAfter c s data) t ∧ RootLatched (dataAfter c s data) t := by
  rcases h.stream_cases with ⟨hk, hne, hu⟩ | ⟨rfl, rfl⟩ | ⟨len, u, rfl, hr, hu, rfl⟩ | ⟨rfl, n, hn, rfl⟩
  · rw [dataAfter_of_ne hd hne hu]
    exact ⟨hk.absorbed ha, hk.rootLatched hl⟩
  · rw [dataAfter_reset hd]
    exact ⟨absorbed_nil_loadReset s, nofun⟩
  · rw [dataAfter_update hd hr, ← hdin]
    exact ⟨absorbed_update ha hr hu, nofun⟩
  · rw [dataAfter_of_ne hd nofun nofun]
    cases hn.symm.trans (rootNode_absorbed ha)
    exact ⟨absorbed_latchRoot ha _, fun _ => holdsRoot_latchRoot s _⟩

/-- Settles O50: the operands sampled and a recorded refusal leave the stream alone, and a decoded command adds its bytes. -/
theorem stepFollowsTheStream : Obligations.StepFollowsTheStream := by
  intro data s t c rest hq ha hl hstep
  have hk := keepsStream_started s c rest
  obtain ⟨c', rest', hq', hcase⟩ := step_next_cases hstep
  cases hq.symm.trans hq'
  rcases hcase with ⟨e, hd, rfl⟩ | ⟨i, hd, hx⟩
  · rw [dataAfter_refuse hd]
    have hk' := keepsStream_refuse (started s c rest) e
    exact ⟨hk'.absorbed (hk.absorbed ha), hk'.rootLatched (hk.rootLatched hl)⟩
  · exact (effect_of_exec hx).follows_stream hd rfl (hk.absorbed ha) (hk.rootLatched hl)

end Sys2Proof.Machine
end

section
/-! PROOF. What the spec calls unobservable stays unobservable (R17, R21, R116). -/

namespace Sys2Proof.Machine

open Sys2Proof.Claims

/-! Two states that look the same. -/

/-- `s` with what no command can show taken from `t`: STK, the output node registers and the counter of free values. -/
def State.withHiddenOf (s t : State) : State :=
  { s with stk := t.stk, ocv := t.ocv, oblk := t.oblk, obl := t.obl, oflg := t.oflg, freeCtr := t.freeCtr }

/-- The output node registers of two states are equal. -/
def SameNode (s t : State) : Prop := s.ocv = t.ocv ∧ s.oblk = t.oblk ∧ s.obl = t.obl ∧ s.oflg = t.oflg

/-- Two states look the same when one has the other's visible fields, and the entries below SP and a latched node are equal. -/
theorem sameObservable_iff (s t : State) : SameObservable s t ↔
    t = s.withHiddenOf t ∧ (∀ j (h : j < 64), j < s.sp.toNat → s.stk[j] = t.stk[j]) ∧ (s.outv = true → SameNode s t) := by
  constructor
  · rintro ⟨hrest, hstk, hnode⟩
    exact ⟨by rw [← hrest]; rfl, hstk, hnode⟩
  · rintro ⟨ht, hstk, hnode⟩
    exact ⟨by rw [ht]; rfl, hstk, hnode⟩

/-- The visible part of `t` is that of `s`. -/
theorem SameObservable.exists_hidden {s t : State} (h : SameObservable s t) : ∃ z, t = s.withHiddenOf z :=
  ⟨t, ((sameObservable_iff s t).mp h).1⟩

theorem SameObservable.hashAgree {s t : State} (h : SameObservable s t) : HashAgree False s t := by
  obtain ⟨z, rfl⟩ := h.exists_hidden
  exact ⟨rfl, rfl, rfl, rfl, rfl, rfl, fun j hj hlt => h.stack j hj (hlt.resolve_left id)⟩

theorem SameObservable.ports {s t : State} (h : SameObservable s t) : s.ports = t.ports := by
  obtain ⟨z, rfl⟩ := h.exists_hidden; rfl

theorem SameObservable.queue {s t : State} (h : SameObservable s t) : s.queue = t.queue := by
  obtain ⟨z, rfl⟩ := h.exists_hidden; rfl

/-- Whether and why a command is refused depends on visible fields alone (R104). -/
theorem SameObservable.stateRefusal {s t : State} (h : SameObservable s t) (i : Instr) : stateRefusal i s = stateRefusal i t := by
  obtain ⟨z, rfl⟩ := h.exists_hidden; rfl

/-! Operations that keep them looking the same. -/

/-- An operation on visible fields that writes neither SP nor OUTV keeps the two looking the same. -/
theorem SameObservable.map {s t : State} (h : SameObservable s t) (f : State → State)
    (hcomm : ∀ u v : State, f (u.withHiddenOf v) = (f u).withHiddenOf v) (hsp : (f s).sp = s.sp) (houtv : (f s).outv = s.outv) :
    SameObservable (f s) (f t) := by
  obtain ⟨ht, hstk, hnode⟩ := (sameObservable_iff s t).mp h
  have es : f s = (f s).withHiddenOf s := hcomm s s
  have et : f t = (f s).withHiddenOf t := by rw [← hcomm, ← ht]
  refine (sameObservable_iff _ _).mpr ⟨by rw [et]; rfl, ?_, ?_⟩
  · rw [hsp, et, es]; exact hstk
  · rw [houtv, et, es]; exact hnode

theorem SameObservable.started {s t : State} (h : SameObservable s t) (c : Command) (rest : List Command) :
    SameObservable (started s c rest) (started t c rest) :=
  h.map (fun u => Claims.started u c rest) (fun _ _ => rfl) rfl rfl

theorem SameObservable.refuse {s t : State} (h : SameObservable s t) (e : ErrCode) : SameObservable (s.refuse e) (t.refuse e) :=
  h.map (·.refuse e) (fun u v => by cases hu : u.err <;> simp [State.refuse, State.withHiddenOf, hu]) (by simp) (by simp)

/-- After RESET the stack is empty and OUTV is clear, so that the free values it draws do not show (R17, R21). -/
theorem SameObservable.loadReset {s t : State} (h : SameObservable s t) : SameObservable s.loadReset t.loadReset := by
  obtain ⟨z, rfl⟩ := h.exists_hidden
  exact (sameObservable_iff _ _).mpr ⟨rfl, fun j _ hj => absurd hj (Nat.not_lt_zero j), nofun⟩

/-- The hash registers may be replaced by others that agree up to SP, once OUTV is cleared. -/
theorem SameObservable.withHashOf {s t x y : State} (h : SameObservable s t) (ha : HashAgree False x y) :
    SameObservable { s.withHashOf x with outv := false } { t.withHashOf y with outv := false } := by
  obtain ⟨z, rfl⟩ := h.exists_hidden
  obtain ⟨hcv, hblk, hblen, hbcnt, hchunk, hsp, hstk⟩ := ha
  refine (sameObservable_iff _ _).mpr ⟨?_, fun j hj hlt => hstk j hj (.inr hlt), nofun⟩
  simp only [State.withHashOf, State.withHiddenOf, hcv, hblk, hblen, hbcnt, hchunk, hsp]

theorem SameObservable.latchRoot {s t : State} (h : SameObservable s t) (n : Node) : SameObservable (latchRoot s n) (latchRoot t n) := by
  obtain ⟨z, rfl⟩ := h.exists_hidden
  exact (sameObservable_iff _ _).mpr ⟨rfl, h.stack, fun _ => ⟨rfl, rfl, rfl, rfl⟩⟩

theorem SameObservable.segmentWords {s t : State} (h : SameObservable s t) (ho : s.outv = true) (k : Counter) :
    segmentWords s k = segmentWords t k := by
  obtain ⟨hcv, hblk, hbl, hfl⟩ := h.node ho
  simp only [Machine.segmentWords, hcv, hblk, hbl, hfl]

/-! Commands. -/

theorem sameOutcome_update {s t : State} (h : SameObservable s t) (len : BlockLen) (hr : updateRefusal len s = none) :
    SameOutcome (exec (.update len) s) (exec (.update len) t) := by
  have hr' : updateRefusal len t = none := (h.stateRefusal (.update len)).symm.trans hr
  have hdin : t.din = s.din := by obtain ⟨z, rfl⟩ := h.exists_hidden; rfl
  have hrel := absorbAll_agree (updateData s.din len) h.hashAgree
  simp only [exec, execUpdate, hr, hr', hdin]
  cases hs : absorbAll (updateData s.din len) s <;> cases ht : absorbAll (updateData s.din len) t <;> rw [hs, ht] at hrel
  case ok.ok u v =>
    rw [absorbAll_frame hs, absorbAll_frame ht]
    exact h.withHashOf hrel
  all_goals exact hrel

theorem sameOutcome_finalize {s t : State} (h : SameObservable s t) : SameOutcome (exec .finalize s) (exec .finalize t) := by
  simp only [exec, execFinalize, rootNode_agree h.hashAgree]
  cases rootNode t with
  | error f => rfl
  | ok n => exact h.latchRoot n

/-- The segment is the same where OUTV = 1 lets SQUEEZE run. -/
theorem sameOutcome_squeeze {s t : State} (h : SameObservable s t) (hs : s.outv = true) :
    SameOutcome (exec .squeeze s) (exec .squeeze t) := by
  have ht : t.outv = true ∧ t.octr = s.octr := by obtain ⟨z, rfl⟩ := h.exists_hidden; exact ⟨hs, rfl⟩
  rw [exec_squeeze hs, exec_squeeze ht.1, ht.2, ← h.segmentWords hs]
  exact h.map (fun u => { u with dout := _, octr := s.octr + 1, dvalid := true }) (fun _ _ => rfl) rfl rfl

theorem sameOutcome_exec {s t : State} (h : SameObservable s t) (i : Instr) : SameOutcome (exec i s) (exec i t) := by
  cases hr : stateRefusal i s with
  | some e =>
    rw [exec_of_stateRefusal hr, exec_of_stateRefusal ((h.stateRefusal i).symm.trans hr)]
    exact h.refuse e
  | none =>
    cases i with
    | nop => exact h
    | reset => exact h.loadReset
    | update len => exact sameOutcome_update h len hr
    | finalize => exact sameOutcome_finalize h
    | squeeze => exact sameOutcome_squeeze h (outv_of_squeeze hr)
    | seek => exact h.map (fun u => { u with octr := u.aux }) (fun _ _ => rfl) rfl rfl
    | loadcv => exact h.map (fun u => { u with rawcv := loadcvOperand u.din }) (fun _ _ => rfl) rfl rfl
    | compress len flg =>
      rw [exec_compress flg s (len_le_of_compress hr), exec_compress flg t (len_le_of_compress hr)]
      exact h.map (fun u => { u with dout := compress u.rawcv (compressOperand u.din) u.aux len (flgWord flg), dvalid := true })
        (fun _ _ => rfl) rfl rfl
    | clrerr => exact h.map State.clearError (fun _ _ => rfl) rfl rfl

/-- Settles O53: the ports read visible fields, and the same command or the same refusal runs on both states. -/
theorem unobservableRegistersStayHidden : Obligations.UnobservableRegistersStayHidden := by
  intro s t h
  refine ⟨h.ports, ?_⟩
  cases hq : s.queue with
  | nil =>
    rw [step_of_queue_nil hq, step_of_queue_nil (h.queue ▸ hq)]
    rfl
  | cons c rest =>
    rw [step_of_queue_cons hq, step_of_queue_cons (h.queue ▸ hq)]
    cases decode c.cmd with
    | cmd i => exact sameOutcome_exec (h.started c rest) i
    | refuse e => exact (h.started c rest).refuse e

end Sys2Proof.Machine
end

section
/-! PROOF. The reset values, the fields of STATUS (R11 to R27, R111), and the order in which steps take the host's commands (R10, R29, R41). -/

namespace Sys2Proof.Machine

open Sys2Proof.Claims

/-- Settles O11: each value is read off the reset state. -/
theorem resetStateHasTheSpecValues : Obligations.ResetStateHasTheSpecValues := by
  refine ⟨rfl, rfl, rfl, rfl, rfl, rfl, rfl, rfl, rfl, rfl, rfl, rfl, rfl, ?_, rfl, rfl⟩
  decide

/-! STATUS. -/

theorem emptyFlag_iff (s : State) : emptyFlag s = true ↔ s.chunk = 0 ∧ s.bcnt = 0 ∧ s.blen = 0 := by
  simp [emptyFlag, and_assoc]

/-- The one-bit fields of STATUS (R26). -/
theorem statusWord_flags (s : State) : (statusWord s).getLsbD 0 = s.err ∧ (statusWord s).getLsbD 4 = s.outv ∧
    (statusWord s).getLsbD 5 = s.dvalid ∧ (statusWord s).getLsbD 6 = emptyFlag s := by
  refine ⟨?_, ?_, ?_, ?_⟩ <;> simp [statusWord]

/-- The wider fields of STATUS, bit by bit: no other field overlaps them (R26). -/
theorem statusWord_fields (s : State) : (statusWord s).extractLsb' 1 3 = s.errcode ∧ (statusWord s).extractLsb' 7 7 = s.blen ∧
    (statusWord s).extractLsb' 14 4 = s.bcnt ∧ (statusWord s).extractLsb' 18 7 = s.sp ∧ (statusWord s).extractLsb' 25 7 = 0 := by
  refine ⟨?_, ?_, ?_, ?_, ?_⟩ <;>
  · apply BitVec.eq_of_getLsbD_eq
    intro i hi
    interval_cases i <;> simp [statusWord]

/-- Settles O12: the fields one by one; the port is the computed word, and at reset only EMPTY is set. -/
theorem statusShowsItsFields : Obligations.StatusShowsItsFields := by
  refine ⟨fun s => ?_, by decide⟩
  obtain ⟨herr, houtv, hdvalid, hempty⟩ := statusWord_flags s
  obtain ⟨hcode, hblen, hbcnt, hsp, hrsvd⟩ := statusWord_fields s
  exact ⟨herr, hcode, houtv, hdvalid, hempty ▸ emptyFlag_iff s, hblen, hbcnt, hsp, hrsvd, rfl⟩

/-! The host's sequence. -/

/-- A step that answers took the first command of the sequence and sampled its operands (R29, R33). -/
theorem step_next_sequence {s t : State} (h : step s = .next t) :
    ∃ c, s.queue = c :: t.queue ∧ t.pos = s.pos + 1 ∧ t.cmd = c.cmd ∧ t.din = c.din ∧ t.aux = c.aux := by
  obtain ⟨c, rest, hq, hcase⟩ := step_next_cases h
  have hkeep : t.queue = (started s c rest).queue ∧ t.pos = (started s c rest).pos ∧ t.cmd = (started s c rest).cmd ∧
      t.din = (started s c rest).din ∧ t.aux = (started s c rest).aux := by
    rcases hcase with ⟨e, -, rfl⟩ | ⟨i, -, hx⟩
    · simp
    · exact (effect_of_exec hx).keeps_sequence
  obtain ⟨hqueue, hpos, hcmd, hdin, haux⟩ := hkeep
  exact ⟨c, hqueue ▸ hq, hpos, hcmd, hdin, haux⟩

/-- `n` steps run the first `n` commands of the sequence in order (R41). -/
theorem run_eq_runCommands (cs rest : List Command) (s : State) (h : s.queue = cs ++ rest) :
    core.run cs.length s = runCommands cs { s with queue := rest } := by
  induction cs generalizing s with
  | nil => subst h; rfl
  | cons c cs ih =>
    have hstep : core.step s = runCommand c { s with queue := cs ++ rest } := step_of_queue_cons h
    rw [runCommand_withQueue] at hstep
    rw [runCommands, runCommand_withQueue]
    cases hc : runCommand c s with
    | next t => rw [hc] at hstep; exact (run_next hstep).trans (ih _ rfl)
    | fault f => rw [hc] at hstep; exact run_fault hstep
    | refused r => rw [hc] at hstep; exact run_refused hstep

/-- Settles O45: an empty sequence has no step, and each step takes the first command of a sequence that has one. -/
theorem stepsConsumeTheSequenceInOrder : Obligations.StepsConsumeTheSequenceInOrder :=
  ⟨fun _ => step_of_queue_nil, fun _ _ => step_next_sequence, run_eq_runCommands⟩

end Sys2Proof.Machine
end

section
/-! PROOF. Byte lanes and little-endian words: packing and unpacking read index by index, and that they undo each other (R34 to R36). -/

namespace Sys2Proof.Machine

open Sys2Proof.Claims

theorem busBytes_length (d : Bus) (n : Nat) : (busBytes d n).length = n := by simp [busBytes]

theorem busBytes_get (d : Bus) (n i : Nat) (h : i < (busBytes d n).length) : (busBytes d n)[i] = busByte d i := by simp [busBytes]

/-- Word `i` is packed from the bytes `4 i` to `4 i + 3` (R35). -/
theorem wordsOf_get (n : Nat) (b : List Byte) (i : Nat) (h : i < n) : (wordsOf n b)[i] =
    wordOfBytes (b.getD (4 * i) 0) (b.getD (4 * i + 1) 0) (b.getD (4 * i + 2) 0) (b.getD (4 * i + 3) 0) := by
  simp [wordsOf]

/-- Byte `k` of a packed word is the byte packed `k`-th, the first in the low bits (R35, R36). -/
theorem wordOfBytes_byte (f : Nat → Byte) (k : Nat) (hk : k < 4) :
    (wordOfBytes (f 0) (f 1) (f 2) (f 3)).extractLsb' (8 * k) 8 = f k := by
  have hbyte := wordBytes_get (wordOfBytes (f 0) (f 1) (f 2) (f 3)) k hk
  rw [wordBytes_of] at hbyte
  interval_cases k <;> exact (Option.some.inj hbyte).symm

theorem bytesOf_getD {n : Nat} (w : Vector Word n) (i k : Nat) (hi : i < n) (hk : k < 4) :
    (bytesOf w).getD (4 * i + k) 0 = w[i].extractLsb' (8 * k) 8 := by
  rw [List.getD_eq_getElem?_getD, bytesOf_get w i k hi hk, Option.getD_some]

/-- Lane `i` of the data-out bus is byte `i` of DOUT (R33, R34). -/
theorem bytesOf_dout_lane (s : State) (i : Nat) (h : i < 64) : (bytesOf s.dout)[i]? = some (busByte s.ports.dout i) := by
  have hlen : i < (bytesOf s.dout).length := by rw [bytesOf_length]; exact h
  rw [State.ports, busByte_busOf _ _ h, List.getD_eq_getElem _ _ hlen, List.getElem?_eq_getElem hlen]

theorem digestOf_length (dout : Block) : (digestOf dout).length = 32 := by
  rw [digestOf, List.length_take, bytesOf_length]; rfl

/-- Settles O13: the lanes of the two buses and the bytes of the words, each read at its index. -/
theorem busesAndWordsAreLittleEndian : Obligations.BusesAndWordsAreLittleEndian :=
  ⟨fun _ _ _ => rfl,
    fun d len => ⟨updateData_length d len, fun i h => busBytes_get d len.toNat i h⟩,
    wordsOf_get,
    fun _ w => ⟨bytesOf_length w, bytesOf_get w⟩,
    bytesOf_dout_lane,
    fun _ t _ => ⟨rfl, digestOf_length t.dout⟩⟩

/-! Packing and unpacking undo each other. -/

/-- A word is packed again from its own four bytes. -/
theorem wordsOf_bytesOf {n : Nat} (w : Vector Word n) : wordsOf n (bytesOf w) = w := by
  ext1 i hi
  rw [wordsOf_get n _ i hi, bytesOf_getD w i 1 hi (by decide), bytesOf_getD w i 2 hi (by decide), bytesOf_getD w i 3 hi (by decide),
    ← Nat.add_zero (4 * i), bytesOf_getD w i 0 hi (by decide)]
  exact wordOfBytes_slices w[i]

/-- Byte `p` lies in word `p / 4` at place `p % 4`, where `b` had it. -/
theorem bytesOf_wordsOf (n : Nat) (b : List Byte) (h : b.length = 4 * n) : bytesOf (wordsOf n b) = b := by
  have hlen : (bytesOf (wordsOf n b)).length = b.length := (bytesOf_length _).trans h.symm
  refine List.ext_getElem hlen fun p hp hpb => ?_
  have hword : p / 4 < n := by omega
  have hplace : p % 4 < 4 := Nat.mod_lt p (by decide)
  rw [← List.getD_eq_getElem _ 0 hp, ← List.getD_eq_getElem _ 0 hpb, ← Nat.div_add_mod p 4, bytesOf_getD _ _ _ hword hplace,
    wordsOf_get n b _ hword]
  exact wordOfBytes_byte (fun k => b.getD (4 * (p / 4) + k) 0) (p % 4) hplace

/-- Up to 64 bytes put on a bus are read back from its lanes (R34). -/
theorem busBytes_busOf (b : List Byte) (h : b.length ≤ 64) : busBytes (busOf b) b.length = b := by
  refine List.ext_getElem (busBytes_length _ _) fun i hi hb => ?_
  rw [busBytes_get, busByte_busOf b i (by omega), List.getD_eq_getElem _ _ hb]

/-- Settles O14: words to bytes and back, bytes to words and back, and bytes through the lanes of a bus. -/
theorem wordsAndBytesAreInverse : Obligations.WordsAndBytesAreInverse :=
  ⟨fun _ => wordsOf_bytesOf, bytesOf_wordsOf, busBytes_busOf⟩

end Sys2Proof.Machine
end

section
/-! PROOF. The clock level against the step: what one rising edge does, and that a run of edges without a reset is the commands accepted
on the way (R40, R41, R114 to R118). -/

namespace Sys2Proof.Machine

open Sys2Proof.Claims

/-! One edge without a reset, case by case. -/

theorem edge_unpowered {s : State} {p : Pins} (h : p.rstN = true) : edge (.unpowered s) p = .next (.unpowered s) := by
  simp [edge, h]

theorem edge_inReset {s : State} {p : Pins} (h : p.rstN = true) : edge (.inReset s) p = .next (.idle s) := by
  simp [edge, h]

theorem edge_idle {s : State} {p : Pins} (h : p.rstN = true) :
    edge (.idle s) p = if p.cmdValid then startCommand p.command s else .next (.idle s) := by
  simp [edge, h]

theorem edge_busy_zero {s : State} {c : Command} {p : Pins} (h : p.rstN = true) : edge (.busy s c 0) p = complete c s := by
  simp [edge, h]

theorem edge_busy_succ {s : State} {c : Command} {left : Nat} {p : Pins} (h : p.rstN = true) :
    edge (.busy s c (left + 1)) p = .next (.busy s c left) := by
  simp [edge, h]

theorem complete_of_next {c : Command} {s t : State} (h : runCommand c s = .next t) : complete c s = .next (.idle t) := by
  rw [complete, h]

/-- A command completes only where its step answers (R115, R116). -/
theorem complete_next {c : Command} {s : State} {k : Clocked} (h : complete c s = .next k) :
    ∃ t, runCommand c s = .next t ∧ k = .idle t := by
  rw [complete] at h
  cases hr : runCommand c s with
  | next t => rw [hr] at h; cases h; exact ⟨t, rfl, rfl⟩
  | fault f => rw [hr] at h; cases h
  | refused r => rw [hr] at h; cases h

/-! Which command an edge accepts. -/

theorem acceptedAt_of_not_ready {k : Clocked} (h : k.cmdReady = false) (p : Pins) : acceptedAt k p = none := by
  simp [acceptedAt, h]

theorem acceptedAt_idle {s : State} {p : Pins} (h : p.rstN = true) :
    acceptedAt (.idle s) p = if p.cmdValid then some p.command else none := by
  simp [acceptedAt, Clocked.cmdReady, h]

/-- Settles O56: a busy core is not ready, and an edge counts down or completes. -/
theorem portsHoldWhileACommandExecutes : Obligations.PortsHoldWhileACommandExecutes := by
  intro s c left p hp
  refine ⟨rfl, rfl, acceptedAt_of_not_ready rfl p, fun hleft => ?_, fun t hleft hrun => ?_⟩
  · obtain ⟨l, rfl⟩ := Nat.exists_eq_succ_of_ne_zero hleft.ne'
    exact edge_busy_succ hp
  · subst hleft
    exact (edge_busy_zero hp).trans (complete_of_next hrun)

/-! A run of edges. -/

/-- The command that was accepted and has not completed. -/
def Clocked.pending : Clocked → List Command
  | .busy _ c _ => [c]
  | .unpowered _ | .inReset _ | .idle _ => []

/-- What the executing command, if there is one, and after it the commands `cs` lead to. -/
def Clocked.runThen (k : Clocked) (cs : List Command) : Host.Outcome State Fault Refusal := runCommands (k.pending ++ cs) k.state

theorem complete_runThen {c : Command} {s : State} {k : Clocked} (h : complete c s = .next k) (cs : List Command) :
    k.runThen cs = runCommands (c :: cs) s := by
  obtain ⟨t, hrun, rfl⟩ := complete_next h
  rw [runCommands, hrun]
  rfl

/-- A command that starts is run before all that follow, whether it completes at once or is pending (R41, R115). -/
theorem startCommand_runThen {c : Command} {s : State} {k : Clocked} (h : startCommand c s = .next k) (cs : List Command) :
    k.runThen cs = runCommands (c :: cs) s := by
  rw [startCommand] at h
  cases hl : latencyExtra c.cmd s with
  | zero => rw [hl] at h; exact complete_runThen h cs
  | succ left => rw [hl] at h; cases h; rfl

/-- One edge: running `cs` after it is running what it accepted and then `cs` before it. -/
theorem edge_runThen {k k' : Clocked} {p : Pins} (hp : p.rstN = true) (h : edge k p = .next k') (cs : List Command) :
    k'.runThen cs = k.runThen ((acceptedAt k p).toList ++ cs) := by
  cases k with
  | unpowered s => rw [edge_unpowered hp] at h; cases h; rw [acceptedAt_of_not_ready rfl]; rfl
  | inReset s => rw [edge_inReset hp] at h; cases h; rw [acceptedAt_of_not_ready rfl]; rfl
  | idle s =>
    rw [edge_idle hp] at h
    rw [acceptedAt_idle hp]
    cases hv : p.cmdValid with
    | true => rw [hv] at h; exact startCommand_runThen h cs
    | false => rw [hv] at h; cases h; rfl
  | busy s c left =>
    rw [acceptedAt_of_not_ready rfl]
    cases left with
    | zero => rw [edge_busy_zero hp] at h; exact complete_runThen h cs
    | succ l => rw [edge_busy_succ hp] at h; cases h; rfl

/-- A run of edges from any clock state: the executing command, then the commands accepted on the way, then `cs`. -/
theorem edges_runThen {ps : List Pins} {k k' : Clocked} (hps : ∀ p ∈ ps, p.rstN = true) (h : edges ps k = .next k') (cs : List Command) :
    k'.runThen cs = k.runThen (acceptedOver ps k ++ cs) := by
  induction ps generalizing k with
  | nil => cases h; rfl
  | cons p ps ih =>
    obtain ⟨hp, hps⟩ := List.forall_mem_cons.mp hps
    rw [edges] at h
    rw [acceptedOver]
    cases he : edge k p with
    | next k₁ =>
      rw [he] at h
      rw [ih hps h, edge_runThen hp he, List.append_assoc]
    | fault f => rw [he] at h; cases h
    | refused r => rw [he] at h; cases h

/-- Settles O58: an idle core has no command pending, at the start of the run and at its end. -/
theorem clockedRunIsItsAcceptedCommands : Obligations.ClockedRunIsItsAcceptedCommands := by
  intro ps s t hps h
  have hrun := edges_runThen hps h []
  rw [List.append_nil] at hrun
  exact hrun.symm

end Sys2Proof.Machine
end

section
/-! PROOF. The decoder and the encoder: each undoes the other, and each check of R49 gives its own outcome (R42 to R47, R49). -/

namespace Sys2Proof

open Sys2Proof.Machine Sys2Proof.Claims

/-! A command against the fields of its word. -/

theorem instrOf_fields (i : Instr) : instrOf i.opcode i.lenBits i.flgBits = i := by cases i <;> rfl

theorem lenBits_of_not_usesLen {i : Instr} (h : i.opcode.usesLen = false) : i.lenBits = 0 := by
  cases i with
  | update | compress => cases h
  | nop | reset | finalize | squeeze | seek | loadcv | clrerr => rfl

theorem flgBits_of_not_usesFlg {i : Instr} (h : i.opcode.usesFlg = false) : i.flgBits = 0 := by
  cases i with
  | compress => cases h
  | nop | reset | update | finalize | squeeze | seek | loadcv | clrerr => rfl

/-- A command is ill formed exactly when it has a LEN and that LEN is not legal (R44, R45). -/
theorem wf_eq_false_iff (i : Instr) : i.wf = false ↔ i.opcode.usesLen = true ∧ lenLegal i.lenBits = false := by
  cases i with
  | update | compress => exact (and_iff_right rfl).symm
  | nop | reset | finalize | squeeze | seek | loadcv | clrerr => exact iff_of_false nofun (fun h => nomatch h.1)

/-- The word of any command decodes to that command, or is refused for its LEN (R44). -/
theorem decode_encode (i : Instr) : decode (encode i) = if i.wf = false then .refuse .badLen else .cmd i := by
  have hlen : ¬(i.lenBits ≠ 0 ∧ i.opcode.usesLen = false) := fun h => h.1 (lenBits_of_not_usesLen h.2)
  have hflg : ¬(i.flgBits ≠ 0 ∧ i.opcode.usesFlg = false) := fun h => h.1 (flgBits_of_not_usesFlg h.2)
  rw [encode, decode_packWord, if_neg hlen, if_neg hflg, instrOf_fields]
  simp only [wf_eq_false_iff]

theorem decode_encode_of_wf {i : Instr} (h : i.wf = true) : decode (encode i) = .cmd i := by
  rw [decode_encode, if_neg (by simp [h])]

theorem decode_encode_of_not_wf {i : Instr} (h : i.wf = false) : decode (encode i) = .refuse .badLen := by
  rw [decode_encode, if_pos h]

/-- Settles O1: the unused fields of the packed word are zero and LEN is legal, so it passes every check of R49. -/
theorem decodeOfEncodeIsTheCommand : Obligations.DecodeOfEncodeIsTheCommand := fun _ => decode_encode_of_wf

/-- A word that decodes has the five fields of its command's encoding. -/
theorem encode_of_decode {w : Word} {i : Instr} (h : decode w = .cmd i) : i.wf = true ∧ encode i = w := by
  obtain ⟨hop, hlen, hflg, hlow, hhigh, hwf⟩ := decode_cmd_fields h
  refine ⟨hwf, ?_⟩
  rw [word_eq_packWord hlow hhigh, hop, hlen, hflg, encode]

/-- Settles O2: the fields of a word that decodes are those of its command. -/
theorem encodeOfDecodeIsTheWord : Obligations.EncodeOfDecodeIsTheWord := fun _ _ => encode_of_decode

/-- A well-formed command has one word. -/
theorem decode_eq_cmd_iff {w : Word} {i : Instr} (h : i.wf = true) : decode w = .cmd i ↔ w = encode i :=
  ⟨fun hw => (encode_of_decode hw).2.symm, fun hw => hw ▸ decode_encode_of_wf h⟩

/-- Settles O4: each of the words is its command's encoding. -/
theorem writtenWordsDecode : Obligations.WrittenWordsDecode :=
  ⟨decode_encode_of_wf (i := .nop) rfl, decode_encode_of_wf (i := .reset) rfl, decode_encode_of_wf (i := .update 64) rfl,
    decode_encode_of_wf (i := .finalize) rfl, decode_encode_of_wf (i := .squeeze) rfl, decode_encode_of_wf (i := .seek) rfl,
    decode_encode_of_wf (i := .loadcv) rfl, decode_encode_of_wf (i := .compress 3 0xA5) rfl,
    decode_encode_of_wf (i := .clrerr) rfl⟩

/-! The checks of R49, one by one. -/

theorem opcodeOf_of_toNat {b : BitVec 4} {op : Opcode} (h : b.toNat = op.bits.toNat) : opcodeOf b = some op :=
  (opcodeOf_eq_some _ _).mpr (BitVec.eq_of_toNat_eq h)

theorem usesLen_eq_false_iff (op : Opcode) : op.usesLen = false ↔ op.bits.toNat ≠ 2 ∧ op.bits.toNat ≠ 7 := by
  cases op <;> decide

theorem usesFlg_eq_false_iff (op : Opcode) : op.usesFlg = false ↔ op.bits.toNat ≠ 7 := by
  cases op <;> decide

theorem decode_illegalOp {w : Word} (h : 9 ≤ (opField w).toNat) : decode w = .refuse .illegalOp := by
  rw [decode, (opcodeOf_eq_none _).mpr h]

/-- Past the checks of the unused bits only that of LEN is left. -/
theorem decode_clean {w : Word} {op : Opcode} (ho : opcodeOf (opField w) = some op) (hr : ¬(rsvdLow w ≠ 0 ∨ rsvdHigh w ≠ 0))
    (hl : ¬(lenField w ≠ 0 ∧ op.usesLen = false)) (hf : ¬(flgField w ≠ 0 ∧ op.usesFlg = false)) :
    decode w = if op.usesLen = true ∧ lenLegal (lenField w) = false then .refuse .badLen
      else .cmd (instrOf op (lenField w) (flgField w)) := by
  rw [decode, ho]
  exact (if_neg hr).trans ((if_neg hl).trans (if_neg hf))

/-- A LEN above 64 is refused once no unused bit is set (R44). -/
theorem decode_badLen {w : Word} {op : Opcode} (ho : opcodeOf (opField w) = some op) (hr : ¬(rsvdLow w ≠ 0 ∨ rsvdHigh w ≠ 0))
    (hl : ¬(lenField w ≠ 0 ∧ op.usesLen = false)) (hf : ¬(flgField w ≠ 0 ∧ op.usesFlg = false)) (h : 64 < (lenField w).toNat) :
    decode w = .refuse .badLen := by
  have hne : lenField w ≠ 0 := by
    intro h0
    rw [h0] at h
    exact absurd h (by decide)
  have huses : op.usesLen = true := Bool.eq_true_of_not_eq_false fun hu => hl ⟨hne, hu⟩
  rw [decode_clean ho hr hl hf, if_pos ⟨huses, lenLegal_false h⟩]

/-- A word that passes every check is the command of its opcode and its fields. -/
theorem decode_instrOf {w : Word} {op : Opcode} (ho : opcodeOf (opField w) = some op) (hr : ¬(rsvdLow w ≠ 0 ∨ rsvdHigh w ≠ 0))
    (hl : ¬(lenField w ≠ 0 ∧ op.usesLen = false)) (hf : ¬(flgField w ≠ 0 ∧ op.usesFlg = false)) (h : (lenField w).toNat ≤ 64) :
    decode w = .cmd (instrOf op (lenField w) (flgField w)) := by
  rw [decode_clean ho hr hl hf, if_neg (by simp [lenLegal_true h])]

/-- An opcode of the table, with the opcodes that use LEN and FLG by their values (R43). -/
theorem exists_opcode {w : Word} (h : (opField w).toNat ≤ 8) : ∃ op, opcodeOf (opField w) = some op ∧
    (op.usesLen = false ↔ (opField w).toNat ≠ 2 ∧ (opField w).toNat ≠ 7) ∧ (op.usesFlg = false ↔ (opField w).toNat ≠ 7) := by
  obtain ⟨op, ho, hb⟩ := opcodeOf_of_le w h
  exact ⟨op, ho, hb ▸ usesLen_eq_false_iff op, hb ▸ usesFlg_eq_false_iff op⟩

/-- Settles O3: for an opcode of the table, the first check that fails decides. -/
theorem decodeMakesItsChecksInOrder : Obligations.DecodeMakesItsChecksInOrder := by
  intro w
  refine ⟨decode_illegalOp, ?rsvd, ?lenUnused, ?flgUnused, ?tooLong, ?legal, decode_ne w⟩ <;> intro h8 hr <;>
    obtain ⟨op, ho, hlen, hflg⟩ := exists_opcode h8
  case rsvd => exact decode_rsvd ho (hr.elim .inl fun h => .inr (.inl h))
  case lenUnused => exact fun hl => decode_rsvd ho (.inr (.inr (.inl ⟨hl.1, hlen.mpr hl.2⟩)))
  case flgUnused => exact fun _ hf => decode_rsvd ho (.inr (.inr (.inr ⟨hf.1, hflg.mpr hf.2⟩)))
  case tooLong =>
    intro hl hf h
    exact decode_badLen ho hr (fun h => hl ⟨h.1, hlen.mp h.2⟩) (fun h => hf ⟨h.1, hflg.mp h.2⟩) h
  case legal =>
    intro hl hf h
    have hcmd : ∀ op', (opField w).toNat = op'.bits.toNat → decode w = .cmd (instrOf op' (lenField w) (flgField w)) := by
      intro op' hop'
      obtain rfl : op' = op := Option.some.inj ((opcodeOf_of_toNat hop').symm.trans ho)
      exact decode_instrOf ho hr (fun h => hl ⟨h.1, hlen.mp h.2⟩) (fun h => hf ⟨h.1, hflg.mp h.2⟩) (Nat.not_lt.mp h)
    exact ⟨hcmd .nop, hcmd .reset, hcmd .update, hcmd .finalize, hcmd .squeeze, hcmd .seek, hcmd .loadcv, hcmd .compress,
      hcmd .clrerr⟩

/-! The masks of R46. -/

/-- The bits of a word outside the fields of an opcode, other than OP (R43, R46). -/
def Opcode.unusedMask : Opcode → Word
  | .update => 0xFFFFF800
  | .compress => 0xFF00F800
  | .nop | .reset | .finalize | .squeeze | .seek | .loadcv | .clrerr => 0xFFFFFFF0

/-- The mask is clear exactly when the reserved fields and the fields that the opcode does not use are zero. -/
theorem and_unusedMask_iff (w : Word) (op : Opcode) : w &&& op.unusedMask = 0 ↔ ¬(rsvdLow w ≠ 0 ∨ rsvdHigh w ≠ 0) ∧
    ¬(lenField w ≠ 0 ∧ op.usesLen = false) ∧ ¬(flgField w ≠ 0 ∧ op.usesFlg = false) := by
  cases op with
  | update => exact (unused_update w).trans (by simp [Opcode.usesLen, Opcode.usesFlg, and_assoc])
  | compress => exact (unused_compress w).trans (by simp [Opcode.usesLen, Opcode.usesFlg])
  | nop | reset | finalize | squeeze | seek | loadcv | clrerr =>
    exact (unused_bare w).trans (by simp [Opcode.usesLen, Opcode.usesFlg, and_assoc, and_comm])

/-- A bit set in the mask is refused (R46). -/
theorem decode_unused {w : Word} {op : Opcode} (ho : opcodeOf (opField w) = some op) (h : w &&& op.unusedMask ≠ 0) :
    decode w = .refuse .rsvdBits := by
  refine decode_rsvd ho ?_
  by_contra hclean
  simp only [not_or] at hclean
  obtain ⟨hlow, hhigh, hlen, hflg⟩ := hclean
  exact h ((and_unusedMask_iff w op).mpr ⟨not_or.mpr ⟨hlow, hhigh⟩, hlen, hflg⟩)

/-- The mask of an opcode is the one of its opcode value. -/
theorem unusedMask_eq (op : Opcode) :
    op.unusedMask = if op.bits = 2 then 0xFFFFF800 else if op.bits = 7 then 0xFF00F800 else 0xFFFFFFF0 := by
  cases op <;> rfl

/-- Settles O5: the mask of the opcode, and the one word of each command without fields. -/
theorem unusedBitsMustBeZero : Obligations.UnusedBitsMustBeZero := by
  refine ⟨fun c s hop hmask => ?_, fun w => ⟨decode_eq_cmd_iff rfl, decode_eq_cmd_iff rfl, decode_eq_cmd_iff rfl, decode_eq_cmd_iff rfl,
    decode_eq_cmd_iff rfl, decode_eq_cmd_iff rfl, decode_eq_cmd_iff rfl⟩⟩
  obtain ⟨op, ho, hb⟩ := opcodeOf_of_le c.cmd hop
  have hb : c.cmd.extractLsb' 0 4 = op.bits := hb
  rw [hb, ← unusedMask_eq] at hmask
  have hd := decode_unused ho hmask
  exact ⟨hd, runCommand_refuse hd⟩

/-- Settles O6: no opcode has a reserved value. -/
theorem reservedOpcodesAreIllegal : Obligations.ReservedOpcodesAreIllegal := fun _ _ h =>
  ⟨decode_illegalOp h, runCommand_refuse (decode_illegalOp h)⟩

/-! LEN (R44). -/

/-- The mask with OP compared too, for an opcode that uses LEN. -/
theorem legalWords_of_usesLen {op : Opcode} (hu : op.usesLen = true) :
    LegalWords op.bits (op.unusedMask ||| 0xF) (instrOf op) := by
  intro w hop
  have hop : opField w = op.bits := hop
  have ho : opcodeOf (opField w) = some op := (opcodeOf_eq_some _ _).mpr hop
  have hlow : ∀ i < 4, op.unusedMask.getLsbD i = false := by cases op <;> decide
  rw [← hop, Ne, and_mask_op_iff w op.unusedMask hlow]
  refine ⟨decode_unused ho, fun hm h => ?_, fun hm h => ?_⟩ <;>
    obtain ⟨hr, hl, hf⟩ := (and_unusedMask_iff w op).mp hm
  · exact decode_badLen ho hr hl hf h
  · exact decode_instrOf ho hr hl hf h

/-- An UPDATE or COMPRESS term with LEN above 64 is refused by its own rule too (R44, log entry 11). -/
theorem exec_badLen {len : BlockLen} (flg : Byte) (s : State) (h : 64 < len.toNat) :
    exec (.update len) s = .next (s.refuse .badLen) ∧ exec (.compress len flg) s = .next (s.refuse .badLen) :=
  ⟨exec_of_stateRefusal (by simp [stateRefusal, updateRefusal, lenLegal_false h]),
    exec_of_stateRefusal (by simp [stateRefusal, lenLegal_false h])⟩

theorem encode_update (len : BlockLen) : encode (.update len) = (0x2 : Word) ||| (len.zeroExtend 32 <<< 4) := by
  simp [encode, packWord, Instr.opcode, Opcode.bits, Instr.lenBits, Instr.flgBits]

theorem encode_compress (len : BlockLen) (flg : Byte) :
    encode (.compress len flg) = (0x7 : Word) ||| (len.zeroExtend 32 <<< 4) ||| (flg.zeroExtend 32 <<< 16) := rfl

/-- Settles O7: the masks of the two opcodes with LEN, then `exec` and the two words with LEN above 64. -/
theorem lenAbove64IsRefused : Obligations.LenAbove64IsRefused := by
  refine ⟨legalWords_of_usesLen (op := .update) rfl, legalWords_of_usesLen (op := .compress) rfl, fun _ flg s => exec_badLen flg s,
    fun len c s h hc => runCommand_refuse ?_, fun len flg c s h hc => runCommand_refuse ?_⟩
  · rw [hc.trans (encode_update len).symm, decode_encode_of_not_wf (i := .update len) (lenLegal_false h)]
  · rw [hc.trans (encode_compress len flg).symm, decode_encode_of_not_wf (i := .compress len flg) (lenLegal_false h)]

end Sys2Proof
end

section
/-! PROOF. A step runs the word it decodes (R49, R116), and the host's side of the command port: what each line of text is assembled to, and
the UPDATEs of HASH (R50, R51). -/

namespace Sys2Proof.Machine

open Sys2Proof.Claims

/-- Settles O44: a step is the decoded command run on the state in which the command starts. -/
theorem stepRunsTheDecodedCommand : Obligations.StepRunsTheDecodedCommand := by
  intro s c rest hq
  rw [step_of_queue_cons hq]
  refine ⟨fun i hd => ?_, fun e hd => ?_⟩ <;> rw [hd] <;> rfl

/-! The lines of text (R50). -/

/-- A field put in its place as a number is the field put in its place as bits. -/
theorem ofNat_shiftLeft_field {n x : Nat} (k : Nat) (hn : n ≤ 32) (hx : x < 2 ^ n) :
    BitVec.ofNat 32 (x <<< k) = (BitVec.ofNat n x).zeroExtend 32 <<< k := by
  have hx32 : x < 2 ^ 32 := hx.trans_le (Nat.pow_le_pow_right (by decide) hn)
  apply BitVec.eq_of_toNat_eq
  rw [BitVec.zeroExtend, BitVec.setWidth_ofNat_of_le_of_lt hn hx, BitVec.toNat_shiftLeft, BitVec.toNat_ofNat, BitVec.toNat_ofNat,
    Nat.mod_eq_of_lt hx32]

theorem lenLegal_ofNat {n : Nat} (h : n ≤ 64) : lenLegal (BitVec.ofNat 7 n) = true :=
  lenLegal_true ((Nat.mod_le n (2 ^ 7)).trans h)

theorem assemble_update {n : Nat} {d : List Byte} (hn : n ≤ 64) (hd : d.length = n) :
    assemble (.update n d) = some ⟨encode (.update (BitVec.ofNat 7 n)), busOf d, 0⟩ := by
  rw [assemble, if_pos ⟨hd, hn⟩, BitVec.ofNat_or, ofNat_shiftLeft_field (n := 7) 4 (by decide) (by omega), encode_update]
  rfl

theorem assemble_seek {k : Nat} (h : k < 2 ^ 64) : assemble (.seek k) = some ⟨encode .seek, 0, BitVec.ofNat 64 k⟩ := if_pos h

theorem assemble_loadcv {d : List Byte} (h : d.length = 32) : assemble (.loadcv d) = some ⟨encode .loadcv, busOf d, 0⟩ := if_pos h

theorem assemble_compress {bl fl k : Nat} {d : List Byte} (hd : d.length = 64) (hbl : bl < 2 ^ 7) (hfl : fl < 2 ^ 8) (hk : k < 2 ^ 64) :
    assemble (.compress bl fl k d) =
      some ⟨encode (.compress (BitVec.ofNat 7 bl) (BitVec.ofNat 8 fl)), busOf d, BitVec.ofNat 64 k⟩ := by
  rw [assemble, if_pos ⟨hd, hbl, hfl, hk⟩, BitVec.ofNat_or, BitVec.ofNat_or, ofNat_shiftLeft_field 4 (by decide) hbl,
    ofNat_shiftLeft_field 16 (by decide) hfl, encode_compress]
  rfl

theorem assemble_word (w : Word) : assemble (.word w.toNat) = some ⟨w, 0, 0⟩ := by
  rw [assemble, if_pos w.isLt, bareCommand, BitVec.ofNat_toNat, BitVec.setWidth_eq]

/-- Settles O8: each line is assembled to its command's encoding, its bytes on the bus and its counter. -/
theorem assembledLinesDecodeToTheirCommands : Obligations.AssembledLinesDecodeToTheirCommands := by
  refine ⟨?bare, ?update, ?seek, ?loadcv, ?compress, assemble_word⟩
  case bare =>
    intro l w i h
    simp only [List.mem_cons, Prod.mk.injEq, List.not_mem_nil, or_false] at h
    obtain ⟨rfl, rfl, rfl⟩ | ⟨rfl, rfl, rfl⟩ | ⟨rfl, rfl, rfl⟩ | ⟨rfl, rfl, rfl⟩ | ⟨rfl, rfl, rfl⟩ := h <;>
      exact ⟨rfl, (decode_eq_cmd_iff rfl).mpr rfl⟩
  case update =>
    exact fun n d hn hd => ⟨_, assemble_update hn hd, decode_encode_of_wf (lenLegal_ofNat hn), rfl, busByte_busOf d⟩
  case seek => exact fun k hk => ⟨_, assemble_seek hk, decode_encode_of_wf rfl, Nat.mod_eq_of_lt hk, rfl⟩
  case loadcv => exact fun d hd => ⟨_, assemble_loadcv hd, decode_encode_of_wf rfl, rfl, busByte_busOf d⟩
  case compress =>
    exact fun bl fl k d hbl hfl hk hd => ⟨_, assemble_compress hd (by omega) hfl hk, decode_encode_of_wf (lenLegal_ofNat hbl),
      Nat.mod_eq_of_lt hk, busByte_busOf d⟩

/-! The pieces of HASH (R51). -/

/-- The first `q` whole blocks of a byte string. -/
def wholeBlocks (bs : List Byte) (q : Nat) : List (List Byte) := (List.range q).map fun i => (bs.drop (64 * i)).take 64

/-- What is left after the whole blocks, as one piece unless it is empty. -/
def lastPiece (bs : List Byte) : List (List Byte) := if bs.length % 64 = 0 then [] else [bs.drop (64 * (bs.length / 64))]

/-- The byte strings that the UPDATEs of HASH carry (R51). -/
def hashPieces (bs : List Byte) : List (List Byte) := wholeBlocks bs (bs.length / 64) ++ lastPiece bs

theorem length_of_mem_wholeBlocks {bs d : List Byte} {q : Nat} (hq : 64 * q ≤ bs.length) (h : d ∈ wholeBlocks bs q) : d.length = 64 := by
  obtain ⟨i, hi, rfl⟩ := List.mem_map.mp h
  have hi : i < q := List.mem_range.mp hi
  rw [List.length_take, List.length_drop]
  omega

theorem wholeBlocks_flatten (bs : List Byte) (q : Nat) : (wholeBlocks bs q).flatten = bs.take (64 * q) := by
  induction q with
  | zero => rfl
  | succ q ih =>
    have hsucc : wholeBlocks bs (q + 1) = wholeBlocks bs q ++ [(bs.drop (64 * q)).take 64] := by
      simp [wholeBlocks, List.range_succ]
    rw [hsucc, List.flatten_append, ih, List.flatten_singleton, ← List.take_add, Nat.mul_succ]

theorem lastPiece_flatten (bs : List Byte) : (lastPiece bs).flatten = bs.drop (64 * (bs.length / 64)) := by
  unfold lastPiece
  split
  · exact (List.drop_eq_nil_of_le (by omega)).symm
  · exact List.flatten_singleton

theorem length_of_mem_lastPiece {bs d : List Byte} (h : d ∈ lastPiece bs) : d.length = bs.length % 64 ∧ 0 < d.length := by
  unfold lastPiece at h
  split at h
  · cases h
  · rw [List.mem_singleton.mp h, List.length_drop]
    omega

theorem hashPieces_flatten (bs : List Byte) : (hashPieces bs).flatten = bs := by
  rw [hashPieces, List.flatten_append, wholeBlocks_flatten, lastPiece_flatten, List.take_append_drop]

/-- The lines of HASH are one UPDATE for each piece, with its length. -/
theorem hashLines_eq (bs : List Byte) : hashLines bs = (hashPieces bs).map fun d => .update d.length d := by
  rw [hashLines, hashPieces, List.map_append]
  congr 1
  · rw [wholeBlocks, List.map_map]
    refine List.map_congr_left fun i hi => ?_
    have hlen : ((bs.drop (64 * i)).take 64).length = 64 :=
      length_of_mem_wholeBlocks (Nat.mul_div_le _ _) (List.mem_map_of_mem hi)
    rw [Function.comp_apply, hlen]
  · have hlen : (bs.drop (64 * (bs.length / 64))).length = bs.length % 64 := by
      rw [List.length_drop]
      omega
    rw [lastPiece, apply_ite (List.map _), List.map_nil, List.map_singleton, hlen]

/-- A piece has 1 to 64 bytes: a whole block has 64, and the last piece is kept only when it is not empty. -/
theorem length_of_mem_hashPieces {bs d : List Byte} (h : d ∈ hashPieces bs) : 0 < d.length ∧ d.length ≤ 64 := by
  rcases List.mem_append.mp h with h | h
  · have := length_of_mem_wholeBlocks (Nat.mul_div_le _ _) h
    omega
  · have := length_of_mem_lastPiece h
    omega

/-- Every piece before the last is a whole block, as there is at most one other. -/
theorem length_of_mem_dropLast_hashPieces {bs d : List Byte} (h : d ∈ (hashPieces bs).dropLast) : d.length = 64 := by
  refine length_of_mem_wholeBlocks (bs := bs) (Nat.mul_div_le _ _) ?_
  unfold hashPieces lastPiece at h
  split at h
  · rw [List.append_nil] at h
    exact List.mem_of_mem_dropLast h
  · rwa [List.dropLast_concat] at h

/-- Settles O9: the pieces are the whole blocks, then what is left of the bytes. -/
theorem hashExpansionCarriesTheBytes : Obligations.HashExpansionCarriesTheBytes := fun bs =>
  ⟨hashPieces bs, hashLines_eq bs, hashPieces_flatten bs, fun _ => length_of_mem_hashPieces,
    fun _ => length_of_mem_dropLast_hashPieces⟩

end Sys2Proof.Machine
end

section
/-! PROOF. The compression function: applications of G to different words commute, the message schedule read as indices, the output word by
word (R54 to R63), and the raw commands LOADCV and COMPRESS on it (R64, R65). -/

namespace Sys2Proof.Machine

open Sys2Proof.Claims

/-! The quarter-round G (R55, R56). -/

/-- Settles O15: G word by word, and its equations evaluated at the words of the example. -/
theorem quarterRoundMixesFourWords : Obligations.QuarterRoundMixesFourWords := by
  refine ⟨fun x n _ => rotr_eq x n, mixG_spec, fun s h0 h4 h8 h12 => ?_⟩
  have e0 : s[(0 : Fin 16)] = 1 := h0
  have e4 : s[(4 : Fin 16)] = 2 := h4
  have e8 : s[(8 : Fin 16)] = 3 := h8
  have e12 : s[(12 : Fin 16)] = 4 := h12
  obtain ⟨ha, hb, hc, hd, -⟩ := mixG_spec s 0 4 8 12 5 6 (by decide)
  simp only [e0, e4, e8, e12] at ha hb hc hd
  exact ⟨ha.trans (by decide), hb.trans (by decide), hc.trans (by decide), hd.trans (by decide)⟩

/-- G leaves every word but its four. -/
theorem mixG_frame {a b c d i : Fin 16} (h : [a, b, c, d].Nodup) (hi : i ∉ [a, b, c, d]) (s : Block) (mx my : Word) :
    (mixG s a b c d mx my)[i] = s[i] := by
  obtain ⟨-, -, -, -, hframe⟩ := mixG_spec s a b c d mx my h
  exact hframe i hi

/-- What G writes depends on its four words and the two message words alone. -/
theorem mixG_congr {a b c d i : Fin 16} {s t : Block} (h : [a, b, c, d].Nodup) (hst : ∀ j ∈ [a, b, c, d], s[j] = t[j])
    (hi : i ∈ [a, b, c, d]) (mx my : Word) : (mixG s a b c d mx my)[i] = (mixG t a b c d mx my)[i] := by
  obtain ⟨hsa, hsb, hsc, hsd, -⟩ := mixG_spec s a b c d mx my h
  obtain ⟨hta, htb, htc, htd, -⟩ := mixG_spec t a b c d mx my h
  simp only [List.forall_mem_cons, List.not_mem_nil, false_imp_iff, implies_true, and_true] at hst
  obtain ⟨ea, eb, ec, ed⟩ := hst
  rw [ea, eb, ec, ed] at hsa hsb hsc hsd
  simp only [List.mem_cons, List.not_mem_nil, or_false] at hi
  obtain rfl | rfl | rfl | rfl := hi
  · exact hsa.trans hta.symm
  · exact hsb.trans htb.symm
  · exact hsc.trans htc.symm
  · exact hsd.trans htd.symm

/-- Applications of G that share no word of the state commute (R57): each sees its own words as they were. -/
theorem mixG_comm {a b c d a' b' c' d' : Fin 16} (h : [a, b, c, d].Nodup) (h' : [a', b', c', d'].Nodup)
    (hdis : List.Disjoint [a, b, c, d] [a', b', c', d']) (mx my mx' my' : Word) :
    Function.Commute (fun s => mixG s a b c d mx my) (fun s => mixG s a' b' c' d' mx' my') := by
  intro s
  refine block_ext _ _ fun i => ?_
  by_cases hi : i ∈ [a, b, c, d]
  · have hsame : ∀ j ∈ [a, b, c, d], (mixG s a' b' c' d' mx' my')[j] = s[j] := fun j hj => mixG_frame h' (hdis hj) s mx' my'
    exact (mixG_congr h hsame hi mx my).trans (mixG_frame h' (hdis hi) _ mx' my').symm
  · by_cases hi' : i ∈ [a', b', c', d']
    · have hsame : ∀ j ∈ [a', b', c', d'], s[j] = (mixG s a b c d mx my)[j] :=
        fun j hj => (mixG_frame h (fun hj' => hdis hj' hj) s mx my).symm
      exact (mixG_frame h hi _ mx my).trans (mixG_congr h' hsame hi' mx' my')
    · simp only [mixG_frame h hi, mixG_frame h' hi']

/-! The order within a round (R57). -/

/-- One application of G: the words of the state and the message words it takes (R56). -/
structure MixCall where
  a  : Fin 16
  b  : Fin 16
  c  : Fin 16
  d  : Fin 16
  mx : Word
  my : Word

/-- The words of the state that the application mixes. -/
def MixCall.words (q : MixCall) : List (Fin 16) := [q.a, q.b, q.c, q.d]

/-- The application by itself. -/
def MixCall.run (q : MixCall) (s : Block) : Block := mixG s q.a q.b q.c q.d q.mx q.my

/-- When no word is taken twice, the applications commute pairwise. -/
theorem mixCalls_commute {qs : List MixCall} (h : (qs.flatMap MixCall.words).Nodup) : (qs.map MixCall.run).Pairwise Function.Commute := by
  obtain ⟨hnodup, hdis⟩ := List.nodup_flatMap.mp h
  exact List.pairwise_map.mpr (hdis.imp_of_mem fun hp hq hpq => mixG_comm (hnodup _ hp) (hnodup _ hq) hpq _ _ _ _)

/-- The columns take each word once. -/
theorem columnMixes_commute (m : Block) : (columnMixes m).Pairwise Function.Commute :=
  mixCalls_commute (qs := [⟨0, 4, 8, 12, m[0], m[1]⟩, ⟨1, 5, 9, 13, m[2], m[3]⟩, ⟨2, 6, 10, 14, m[4], m[5]⟩,
      ⟨3, 7, 11, 15, m[6], m[7]⟩])
    (show [0, 4, 8, 12, 1, 5, 9, 13, 2, 6, 10, 14, 3, 7, 11, 15].Nodup by decide)

/-- The diagonals take each word once. -/
theorem diagonalMixes_commute (m : Block) : (diagonalMixes m).Pairwise Function.Commute :=
  mixCalls_commute (qs := [⟨0, 5, 10, 15, m[8], m[9]⟩, ⟨1, 6, 11, 12, m[10], m[11]⟩, ⟨2, 7, 8, 13, m[12], m[13]⟩,
      ⟨3, 4, 9, 14, m[14], m[15]⟩])
    (show [0, 5, 10, 15, 1, 6, 11, 12, 2, 7, 8, 13, 3, 4, 9, 14].Nodup by decide)

/-- Functions that commute pairwise may be applied in any order. -/
theorem applyAll_perm {fs gs : List (Block → Block)} (hp : List.Perm fs gs) (hc : gs.Pairwise Function.Commute) (s : Block) :
    applyAll fs s = applyAll gs s := by
  have : Std.Symm (Function.Commute (α := Block)) := ⟨fun _ _ h => Function.Commute.symm h⟩
  have hall := hc.forall_of_forall (fun f _ => Function.Commute.refl f)
  exact hp.foldl_eq' (fun f hf g hg x => hall (hp.mem_iff.mp hg) (hp.mem_iff.mp hf) x) s

theorem mixRound_eq_applyAll (s m : Block) : mixRound s m = applyAll (diagonalMixes m) (applyAll (columnMixes m) s) := rfl

/-- Settles O16: the applications of each half commute pairwise. -/
theorem roundHalvesMayRunInAnyOrder : Obligations.RoundHalvesMayRunInAnyOrder := by
  intro s m cols diags hcols hdiags
  rw [mixRound_eq_applyAll, applyAll_perm hcols (columnMixes_commute m), applyAll_perm hdiags (diagonalMixes_commute m)]

/-! The message schedule (R54, R59, R63). -/

/-- The slot of the message that `permute` moves into slot `i` (R54). -/
def permIndex (i : Fin 16) : Fin 16 := PERM[i]

/-- Permuting the message `r` times reads it at the index permuted `r` times. -/
theorem iterate_permute_get (r : Nat) (m : Block) (i : Fin 16) : (permute^[r] m)[i] = m[permIndex^[r] i] := by
  induction r generalizing m with
  | zero => rfl
  | succ r ih =>
    rw [Function.iterate_succ_apply, ih]
    simp only [Function.iterate_succ_apply']
    exact permute_get m _

/-- Row `r` of R63 is the index permuted `r` times, slot by slot. -/
theorem scheduleTable_eq : scheduleTable = (List.range 7).map fun r => (List.finRange 16).map permIndex^[r] := by decide

theorem scheduleTable_get {r : Nat} {i j : Fin 16} {row : List (Fin 16)} (hrow : scheduleTable[r]? = some row)
    (hj : row[i.val]? = some j) : j = permIndex^[r] i := by
  rw [scheduleTable_eq, List.getElem?_map] at hrow
  obtain ⟨r', hr', rfl⟩ := Option.map_eq_some_iff.mp hrow
  obtain ⟨_, rfl⟩ := List.getElem?_eq_some_iff.mp hr'
  simpa using hj.symm

/-- Round `r` takes the message permuted `r` times (R59). -/
theorem mixRounds_eq_foldl (n : Nat) (s m : Block) :
    mixRounds n s m = (List.range n).foldl (fun x r => mixRound x (permute^[r] m)) s := by
  induction n generalizing s m with
  | zero => rfl
  | succ n ih => rw [mixRounds, ih, List.range_succ_eq_map, List.foldl_cons, List.foldl_map]; rfl

/-- Settles O17: the table holds the iterates of PERM, and each round takes one more. -/
theorem roundsReadTheMessageSchedule : Obligations.RoundsReadTheMessageSchedule := by
  refine fun s m => ⟨fun r i row j hrow hj => ?_, mixRounds_eq_foldl ROUNDS s m⟩
  rw [iterate_permute_get, scheduleTable_get hrow hj]

/-! The initial state and the output (R58, R60, R61). -/

theorem initState_cv (cv : ChainValue) (t : Counter) (bl : BlockLen) (fl : Word) (i : Nat) (h : i < 8) :
    (initState cv t bl fl)[i] = cv[i] := by
  interval_cases i <;> rfl

theorem initState_iv (cv : ChainValue) (t : Counter) (bl : BlockLen) (fl : Word) (i : Nat) (h : i < 4) :
    (initState cv t bl fl)[i + 8] = IV[i] := by
  interval_cases i <;> rfl

theorem feedForward_get (s : Block) (cv : ChainValue) (i : Nat) (h : i < 8) :
    (feedForward s cv)[i] = s[i] ^^^ s[i + 8] ∧ (feedForward s cv)[i + 8] = s[i + 8] ^^^ cv[i] := by
  interval_cases i <;> exact ⟨rfl, rfl⟩

theorem firstHalf_get (b : Block) (i : Nat) (h : i < 8) : (firstHalf b)[i] = b[i] := by
  interval_cases i <;> rfl

/-- Settles O18: the words of the initial state, of the feed-forward and of its first half. -/
theorem compressionOutputIsTheFeedForward : Obligations.CompressionOutputIsTheFeedForward := fun cv m t bl fl =>
  ⟨initState_cv cv t bl fl, initState_iv cv t bl fl, rfl, rfl, rfl, rfl,
    feedForward_get (mixRounds 7 (initState cv t bl fl) m) cv, firstHalf_get (compress cv m t bl fl)⟩

/-! The raw commands (R64, R65). -/

/-- A command that uses neither LEN nor FLG has one legal word: another word with its OP has a bit set in some other field (R46). -/
theorem onlyLegalWord_encode {i : Instr} (hlen : i.opcode.usesLen = false) (hflg : i.opcode.usesFlg = false) :
    OnlyLegalWord i.opcode.bits (encode i) i := by
  have hwf : i.wf = true := by
    refine Bool.eq_true_of_not_eq_false fun h => ?_
    obtain ⟨huses, -⟩ := (wf_eq_false_iff i).mp h
    cases hlen.symm.trans huses
  refine ⟨decode_encode_of_wf hwf, fun w hop hne => ?_⟩
  have hop : opField w = i.opcode.bits := hop
  refine decode_unused ((opcodeOf_eq_some _ _).mpr hop) fun hmask => hne ?_
  obtain ⟨hr, hl, hf⟩ := (and_unusedMask_iff w i.opcode).mp hmask
  simp only [hlen, hflg, and_true, not_or, not_not] at hr hl hf
  rw [word_eq_packWord hr.1 hr.2, hop, hl, hf, encode, lenBits_of_not_usesLen hlen, flgBits_of_not_usesFlg hflg]

/-- Settles O39: the low lanes as words, and the one word of LOADCV. -/
theorem loadcvLoadsRawcv : Obligations.LoadcvLoadsRawcv :=
  ⟨fun s => ⟨_, rfl, rfl, wordsOf_bus s.din 8 32 (by decide)⟩, onlyLegalWord_encode (i := .loadcv) rfl rfl⟩

/-- Settles O40: the whole bus as the block, and the mask of COMPRESS. -/
theorem compressRunsTheRawFunction : Obligations.CompressRunsTheRawFunction :=
  ⟨fun _ flg s h => ⟨_, compressOperand s.din, exec_compress flg s h, wordsOf_bus s.din 16 64 (by decide), rfl, rfl, rfl⟩,
    legalWords_of_usesLen (op := .compress) rfl⟩

/-- A block put on the bus is the block COMPRESS reads (R35, R36, R65). -/
theorem compressOperand_busOf (b : Block) : compressOperand (busOf (bytesOf b)) = b := by
  have hlen : (bytesOf b).length = 64 := bytesOf_length b
  rw [compressOperand, ← hlen, busBytes_busOf _ hlen.le, wordsOf_bytesOf]

/-- A flags word below 256 is the one its low byte gives COMPRESS (R45). -/
theorem flgWord_truncate {w : Word} (h : w.toNat < 256) : flgWord (w.truncate 8) = w := by
  apply BitVec.eq_of_toNat_eq
  simp only [flgWord, BitVec.truncate_eq_setWidth, BitVec.toNat_setWidth]
  omega

/-- Settles O42: the operands are the inputs of the segment, one by one. -/
theorem compressReproducesSqueeze : Obligations.CompressReproducesSqueeze := by
  intro s t u hout hobl hflg hcv hdin haux hsq hcomp
  rw [exec_squeeze hout] at hsq
  rw [exec_compress _ s hobl, hcv, hdin, haux, compressOperand_busOf, flgWord_truncate hflg] at hcomp
  cases hsq
  cases hcomp
  rfl

end Sys2Proof.Machine
end

section
/-! PROOF. The chunk processor: the start flag, AbsorbByte and the output nodes (R67 to R70, R75 to R77), and its state at reset (R74). -/

namespace Sys2Proof.Machine

open Sys2Proof.Claims

/-! The output nodes (R67, R70, R75 to R77). -/

/-- The left child fills words 0 to 7 of a parent's block and the right child words 8 to 15 (R75). -/
theorem joinCvs_get (l r : ChainValue) (i : Nat) (h : i < 8) : (joinCvs l r)[i] = l[i] ∧ (joinCvs l r)[i + 8] = r[i] := by
  refine ⟨Vector.getElem_append_left h, ?_⟩
  have hright := Vector.getElem_append_right (xs := l) (ys := r) (i := i + 8) (by omega) (by omega)
  simpa only [joinCvs, Nat.add_sub_cancel] using hright

/-- Settles O19: the nodes by their definitions, and the parent's block child by child. -/
theorem outputNodesOfChunksAndParents : Obligations.OutputNodesOfChunksAndParents :=
  ⟨fun _ => ⟨rfl, rfl⟩, fun l r => ⟨rfl, rfl, joinCvs_get l r⟩⟩

/-! AbsorbByte (R68, R69). -/

/-- Settles O30: a full buffer is compressed before the byte is stored, a buffer with room only takes the byte. -/
theorem absorbByteCompressesOnlyAFullBuffer : Obligations.AbsorbByteCompressesOnlyAFullBuffer :=
  fun b _ => ⟨fun hfull => absorbByte_full b (blen_eq_64.mp hfull), absorbByte_room b⟩

/-! The empty stream (R20, R74). -/

/-- The reset state has the hash registers that loading the reset values gives, but for STK, where SP = 0 leaves no valid entry. -/
theorem absorbed_nil_reset : Absorbed [] State.reset := by
  obtain ⟨hchunk, hbcnt, hblen, hcv, hblk, hstack, hsp⟩ := absorbed_nil_loadReset State.reset
  exact ⟨hchunk, hbcnt, hblen, hcv, hblk, hstack, hsp⟩

/-- Settles O49: the hash registers hold the empty stream, and OUTV = 0 leaves no root to hold. -/
theorem resetHasAbsorbedNothing : Obligations.ResetHasAbsorbedNothing := ⟨absorbed_nil_reset, rfl, nofun⟩

end Sys2Proof.Machine
end

section
/-! PROOF. PushChunkCV and CloseChunk (R78, R79, R81): the merges of the loop, counted by the power of two that divides CHUNK + 1. -/

namespace Sys2Proof.Machine

open Sys2Proof.Claims

/-! The merges have enough entries below them (R19, R81). -/

/-- A count one below a multiple of `2 ^ n` ends in `n` one bits. -/
theorem testBit_of_dvd_succ {n c k : Nat} (hdvd : 2 ^ n ∣ c + 1) (hk : k < n) : c.testBit k = true := by
  obtain ⟨m, hm⟩ := hdvd
  have hm0 : 0 < m := Nat.pos_of_ne_zero fun h => by simp [h] at hm
  have hpos : 0 < 2 ^ n := Nat.two_pow_pos n
  have hc : c = 2 ^ n * (m - 1) + (2 ^ n - 1) := by
    have hsplit : 2 ^ n * m = 2 ^ n * (m - 1) + 2 ^ n := by rw [← Nat.mul_succ, Nat.succ_eq_add_one, Nat.sub_add_cancel hm0]
    omega
  rw [hc, Nat.testBit_two_pow_mul_add _ (by omega), if_pos hk, Nat.testBit_two_pow_sub_one, decide_eq_true hk]

/-- Those `n` bits are among the one bits of the count. -/
theorem le_onesCount_of_dvd_succ {n c : Nat} (hdvd : 2 ^ n ∣ c + 1) (hmax : c < 2 ^ 64) : n ≤ onesCount c := by
  have hn : n ≤ 64 := (Nat.pow_le_pow_iff_right (by decide)).mp ((Nat.le_of_dvd c.succ_pos hdvd).trans hmax)
  have hall : (List.range n).filter (fun k => c.testBit k) = List.range n :=
    List.filter_eq_self.mpr fun k hk => testBit_of_dvd_succ hdvd (List.mem_range.mp hk)
  have hsub := (List.range_sublist.mpr hn).filter fun k => c.testBit k
  rw [hall] at hsub
  simpa only [onesCount, List.length_range] using hsub.length_le

/-! The loop (R78). -/

/-- SP of a stack with its top `n` entries merged away. -/
theorem sp_sub_ofNat {x : BitVec 7} {n : Nat} (h : n ≤ x.toNat) : (x - BitVec.ofNat 7 n).toNat = x.toNat - n := by
  have := x.isLt
  bv_omega

/-- The next merge takes the entry `n` below the top, which the stack holds. -/
theorem mergedCv_succ {s : State} {n : Nat} (cv : ChainValue) (hn : n < s.sp.toNat) (hle : s.sp.toNat ≤ 64) :
    mergedCv s cv (n + 1) = parentCv (s.stk[s.sp.toNat - n - 1]'(by omega)) (mergedCv s cv n) := by
  have hget : s.stk.toList.getD (s.sp.toNat - n - 1) cv = s.stk[s.sp.toNat - n - 1]'(by omega) := by
    rw [List.getD_eq_getElem _ _ (by simp; omega), Vector.getElem_toList]
  rw [mergedCv, Nat.sub_right_comm, hget]

/-- The first `n` passes of the loop merge when `total` has `n` trailing zeros: they take `n` entries off the stack. -/
theorem mergeLoop_passes {s : State} {n total : Nat} (fuel : Nat) (cv : ChainValue) (hdvd : 2 ^ n ∣ total)
    (hn : n ≤ s.sp.toNat) (hle : s.sp.toNat ≤ 64) :
    mergeLoop (fuel + n) total cv s =
      mergeLoop fuel (total / 2 ^ n) (mergedCv s cv n) { s with sp := s.sp - BitVec.ofNat 7 n } := by
  induction n generalizing fuel with
  | zero => simp [mergedCv]
  | succ n ih =>
    have heven : total / 2 ^ n % 2 = 0 := by
      obtain ⟨m, rfl⟩ := hdvd
      rw [pow_succ, Nat.mul_assoc, Nat.mul_div_cancel_left _ (Nat.two_pow_pos n), Nat.mul_mod_right]
    have hsp : (s.sp - BitVec.ofNat 7 n).toNat = s.sp.toNat - n := sp_sub_ofNat (by omega)
    have hsp' : s.sp - BitVec.ofNat 7 n - 1 = s.sp - BitVec.ofNat 7 (n + 1) := by bv_omega
    calc mergeLoop (fuel + (n + 1)) total cv s
      _ = mergeLoop (fuel + 1 + n) total cv s := by rw [Nat.add_right_comm, Nat.add_assoc]
      _ = mergeLoop (fuel + 1) (total / 2 ^ n) (mergedCv s cv n) { s with sp := s.sp - BitVec.ofNat 7 n } :=
        ih (fuel + 1) ((pow_dvd_pow 2 n.le_succ).trans hdvd) (by omega)
      _ = mergeLoop fuel (total / 2 ^ (n + 1)) (mergedCv s cv (n + 1)) { s with sp := s.sp - BitVec.ofNat 7 (n + 1) } := by
        rw [mergeLoop_even heven (by simp only [hsp]; omega) (by simp only [hsp]; omega), mergedCv_succ cv hn hle,
          Nat.div_div_eq_div_mul, ← pow_succ]
        simp only [hsp, hsp']

/-- With exactly `n` trailing zeros the loop ends after those merges, and PushChunkCV pushes what they give. -/
theorem pushChunkCv_eq_pushStk {s : State} {n : Nat} (cv : ChainValue) (hdvd : 2 ^ n ∣ s.chunk.toNat + 1)
    (hndvd : ¬2 ^ (n + 1) ∣ s.chunk.toNat + 1) (hn : n ≤ s.sp.toNat) (hle : s.sp.toNat ≤ 64) :
    pushChunkCv cv s = pushStk { s with sp := s.sp - BitVec.ofNat 7 n } (mergedCv s cv n) := by
  have hodd : (s.chunk.toNat + 1) / 2 ^ n % 2 = 1 := by
    refine Nat.mod_two_ne_zero.mp fun h0 => hndvd ?_
    rw [pow_succ]
    exact (Nat.dvd_div_iff_mul_dvd hdvd).mp (Nat.dvd_of_mod_eq_zero h0)
  have hloop := mergeLoop_passes (64 - n + 1) cv hdvd hn hle
  rw [show 64 - n + 1 + n = 65 by omega, mergeLoop_odd hodd] at hloop
  simp only [pushChunkCv, hloop]

/-! PushChunkCV and CloseChunk under the invariant of the hash registers. -/

/-- The invariant is what PushChunkCV needs to answer. -/
theorem pushChunkCv_of_hashInv {s : State} (cv : ChainValue) (hinv : HashInv s) (hmax : s.chunk.toNat < 2 ^ 64 - 1) :
    ∃ stk' sp', pushChunkCv cv s = .ok { s with stk := stk', sp := sp' } := by
  obtain ⟨stk', sp', hok, -, -⟩ := pushChunkCv_spec cv s (by omega) (by rw [hinv.sp_ones, onesCount_eq_length])
  exact ⟨stk', sp', hok⟩

/-- Settles O31: the loop merges once per trailing zero, and the push stores the result in the entry the last merge freed. -/
theorem pushMergesOncePerTrailingZero : Obligations.PushMergesOncePerTrailingZero := by
  intro cv s n hinv hmax hdvd hndvd
  have hn : n ≤ s.sp.toNat := hinv.sp_ones ▸ le_onesCount_of_dvd_succ hdvd (by omega)
  have hsp := sp_sub_ofNat hn
  have hpush := pushChunkCv_eq_pushStk cv hdvd hndvd hn (sp_le_of_hashInv hinv)
  obtain ⟨stk', sp', hok⟩ := pushChunkCv_of_hashInv cv hinv hmax
  obtain ⟨hlt, -⟩ := pushStk_ok (hpush.symm.trans hok)
  refine ⟨_, hpush.trans (pushStk_lt _ hlt), hn, ?_, ?_, ?_, rfl⟩
  · simp only [sp_add_one (hlt.trans (by decide)), hsp]
  · simp only [hsp] at hlt
    simp [Vector.toList_set, hsp, hlt]
  · intro j hj
    simp only [Vector.toList_set, hsp]
    exact List.getElem?_set_ne hj.ne'

/-- Settles O32: the push changes STK and SP alone, and ChunkInit follows it. -/
theorem closeChunkStartsTheNextChunk : Obligations.CloseChunkStartsTheNextChunk := by
  intro s hinv hmax
  obtain ⟨stk', sp', hok⟩ := pushChunkCv_of_hashInv (cvOf (chunkOutput s)) hinv hmax
  exact ⟨_, _, hok, by simp only [closeChunk, hok]; rfl, rfl⟩

end Sys2Proof.Machine
end

section
/-! PROOF. The driver commands with a fixed effect, NOP, RESET and CLRERR (R82, R83, R90), and which commands may write each register. -/

namespace Sys2Proof.Machine

open Sys2Proof.Claims

/-- Another word with the opcode of a command that has one legal word does nothing but record RSVD_BITS (R46, R98). -/
theorem runCommand_of_onlyLegalWord {op : BitVec 4} {w : Word} {i : Instr} (h : OnlyLegalWord op w i) (c : Command) (s : State)
    (hop : c.cmd.extractLsb' 0 4 = op) (hne : c.cmd ≠ w) : runCommand c s = .next ((s.accept c).refuse .rsvdBits) :=
  runCommand_refuse (h.2 c.cmd hop hne)

/-- Settles O25: NOP answers the state it is given, and its word is the only one with OP 0. -/
theorem nopWritesNothing : Obligations.NopWritesNothing :=
  ⟨fun _ => rfl, onlyLegalWord_encode (i := .nop) rfl rfl⟩

/-- Settles O41: CLRERR clears the record by its rule, and any other word with its opcode is refused. -/
theorem clrerrClearsTheRecord : Obligations.ClrerrClearsTheRecord :=
  have honly := onlyLegalWord_encode (i := .clrerr) rfl rfl
  ⟨fun _ => rfl, honly, runCommand_of_onlyLegalWord honly⟩

/-- Settles O26: the loaded values field by field, and any other word with RESET's opcode is refused. -/
theorem resetLoadsTheResetValues : Obligations.ResetLoadsTheResetValues :=
  have honly := onlyLegalWord_encode (i := .reset) rfl rfl
  ⟨fun s => ⟨s.loadReset, rfl, rfl, rfl, rfl, rfl, rfl, rfl, rfl, rfl, rfl, rfl, rfl, rfl, rfl, loadReset_status s, rfl, rfl, rfl, rfl, rfl,
    loadReset_obs s⟩, honly, runCommand_of_onlyLegalWord honly⟩

/-! The writers of each register (spec/10_state.md section 8). -/

/-- The chunk processor and the stack are written by RESET and UPDATE alone. -/
theorem Effect.keeps_hash {s t : State} {i : Instr} (h : Effect s i t) (hr : i ≠ .reset) (hu : ∀ len, i ≠ .update len) :
    HashAgree True s t := by
  rcases h.stream_cases with ⟨hk, -, -⟩ | ⟨rfl, -⟩ | ⟨len, _, rfl, -⟩ | ⟨-, n, -, rfl⟩
  · exact hk.hash
  · exact absurd rfl hr
  · exact absurd rfl (hu len)
  · exact hashAgree_latchRoot s n

/-- What the commands may write beside the chunk processor and the stack. -/
theorem Effect.writers {s t : State} {i : Instr} (h : Effect s i t) (hr : i ≠ .reset) :
    ((∀ len, i ≠ .update len) → i ≠ .finalize → t.outv = s.outv) ∧
    (i ≠ .finalize → t.ocv = s.ocv ∧ t.oblk = s.oblk ∧ t.obl = s.obl ∧ t.oflg = s.oflg) ∧
    (i ≠ .finalize → i ≠ .squeeze → i ≠ .seek → t.octr = s.octr) ∧
    (i ≠ .loadcv → t.rawcv = s.rawcv) ∧
    (i ≠ .squeeze → (∀ len flg, i ≠ .compress len flg) → t.dout = s.dout ∧ t.dvalid = s.dvalid) := by
  cases h with
  | refused => simp
  | reset => exact absurd rfl hr
  | update _ ha => rw [absorbAll_frame ha]; simp [State.withHashOf]
  | nop | finalize | squeeze | seek | loadcv | compress | clrerr => simp

/-- NOP, FINALIZE, SEEK and LOADCV are never refused, and leave the error record alone. -/
theorem Effect.keeps_error {s t : State} {i : Instr} (h : Effect s i t) (hi : i = .nop ∨ i = .finalize ∨ i = .seek ∨ i = .loadcv) :
    t.err = s.err ∧ t.errcode = s.errcode := by
  cases h with
  | refused hr => rcases hi with rfl | rfl | rfl | rfl <;> cases hr
  | nop | finalize | seek | loadcv => exact ⟨rfl, rfl⟩
  | reset | update | squeeze | compress | clrerr => simp at hi

/-- Settles O43: the hash registers, then the registers beside them, the error record and what belongs to the host. -/
theorem eachRegisterHasItsWriters : Obligations.EachRegisterHasItsWriters := by
  intro i s t hx hr
  have heff := effect_of_exec hx
  obtain ⟨houtv, hnode, hoctr, hrawcv, hdout⟩ := heff.writers hr
  obtain ⟨hqueue, hpos, hcmd, hdin, haux⟩ := heff.keeps_sequence
  refine ⟨fun hu => ?_, houtv, hnode, hoctr, hrawcv, hdout, heff.keeps_error, hcmd, hdin, haux, hqueue, hpos⟩
  have ha := heff.keeps_hash hr hu
  have hstk : s.stk = t.stk := Vector.ext fun j hj => ha.stk j hj (.inl trivial)
  exact ⟨ha.cv.symm, ha.blk.symm, ha.blen.symm, ha.bcnt.symm, ha.chunk.symm, hstk.symm, ha.sp.symm⟩

end Sys2Proof.Machine
end

section
/-! PROOF. UPDATE: its refusal by the counter overflow, its loop lane by lane, and the split of the input (R34, R39, R84 to R86). -/

namespace Sys2Proof.Machine

open Sys2Proof.Claims

/-- An UPDATE that is not refused and whose loop answers clears OUTV in what the loop leaves (R84). -/
theorem exec_update {len : BlockLen} {s u : State} (hr : updateRefusal len s = none) (hu : absorbAll (updateData s.din len) s = .ok u) :
    exec (.update len) s = .next { u with outv := false } := by
  simp only [exec, execUpdate, hr, hu]

/-! The counter overflow (R85). -/

theorem updateRefusal_ctrOvf {len : BlockLen} {s : State} (hlen : len.toNat ≤ 64)
    (hovf : s.chunk.toNat = 2 ^ 64 - 1 ∧ 1024 < chunkLen s + len.toNat) : updateRefusal len s = some .ctrOvf := by
  simp [updateRefusal, lenLegal_true hlen, (ctrOverflow_iff len s).mpr hovf]

/-- Settles O29: the overflow is a cause of refusal, and without it an UPDATE of legal LEN executes and leaves the error record alone. -/
theorem updateOverflowIsRefusedWhole : Obligations.UpdateOverflowIsRefusedWhole := by
  intro len s hlen
  refine ⟨fun hovf => exec_of_stateRefusal (updateRefusal_ctrOvf hlen hovf), fun hovf t hx => ?_⟩
  have hr := updateRefusal_none hlen hovf
  obtain ⟨herr, hcode⟩ := exec_err hx hr nofun nofun
  refine ⟨herr, hcode, ?_⟩
  cases effect_of_exec hx with
  | refused hr' => cases hr.symm.trans hr'
  | update => rfl

/-- Settles O27: the loop answers under the invariant, counts its bytes and writes the hash registers alone. -/
theorem updateCompletes : Obligations.UpdateCompletes := by
  intro len s hinv hlen hovf
  have hr := updateRefusal_none hlen hovf
  obtain ⟨u, hu, hui⟩ := absorbAll_update hinv hr
  have hcount := absorbAll_count hinv (by rw [updateData_length]; exact room_of_no_overflow hinv hlen hovf) hu
  rw [updateData_length] at hcount
  exact ⟨{ u with outv := false }, exec_update hr hu, rfl, hashInv_setOutv hui false, hcount, by rw [absorbAll_frame hu]; rfl⟩

/-! The loop lane by lane (R84). -/

/-- An UPDATE of LEN 0 never overflows the counter: a chunk holds at most 1024 bytes (R84, R85). -/
theorem exec_update_zero {s : State} (hinv : HashInv s) : exec (.update 0) s = .next { s with outv := false } := by
  have hle := chunkLen_le_of_hashInv hinv
  exact exec_update (updateRefusal_none (by decide) fun h => absurd h.2 (by simpa using hle)) rfl

/-- One pass of the loop that answers closed the chunk if it was full, and then absorbed its byte (R84). -/
theorem absorb_ok {b : Byte} {s t : State} (h : absorb b s = .ok t) :
    ∃ v, (if chunkLen s = CHUNK_LEN then closeChunk s = .ok v else v = s) ∧ absorbByte b v = .ok t := by
  unfold absorb at h
  split at h
  · next hfull =>
    simp only [if_pos hfull]
    cases hv : closeChunk s with
    | error f => rw [hv] at h; cases h
    | ok v => rw [hv] at h; exact ⟨v, rfl, h⟩
  · next hroom => exact ⟨s, by rw [if_neg hroom], h⟩

/-- A loop over one byte more that answers is the loop without it and then one pass. -/
theorem absorbAll_snoc_ok {bs : List Byte} {b : Byte} {s u : State} (h : absorbAll (bs ++ [b]) s = .ok u) :
    ∃ x, absorbAll bs s = .ok x ∧ absorb b x = .ok u := by
  rw [absorbAll_append] at h
  cases hx : absorbAll bs s with
  | error f => rw [hx] at h; cases h
  | ok x =>
    rw [hx] at h
    refine ⟨x, rfl, ?_⟩
    simp only [absorbAll] at h
    cases hb : absorb b x with
    | error f => rw [hb] at h; cases h
    | ok y => rw [hb] at h; exact h

theorem updateRefusal_ofNat {n : Nat} {s : State} (hn : n ≤ 64) (hovf : ¬(s.chunk.toNat = 2 ^ 64 - 1 ∧ 1024 < chunkLen s + n)) :
    updateRefusal (BitVec.ofNat 7 n) s = none := by
  have hlen : (BitVec.ofNat 7 n).toNat = n := Nat.mod_eq_of_lt (by omega)
  exact updateRefusal_none (hlen.symm ▸ hn) (hlen.symm ▸ hovf)

/-- Settles O28: the last byte's pass is a pass of the loop, and the loop carries the cleared OUTV along. -/
theorem updateAbsorbsLaneByLane : Obligations.UpdateAbsorbsLaneByLane := by
  intro s hinv
  refine ⟨exec_update_zero hinv, fun n hn hovf => ?_⟩
  have hr := updateRefusal_ofNat (n := n) (s := s) (by omega) (by omega)
  have hr' := updateRefusal_ofNat (n := n + 1) (by omega) hovf
  obtain ⟨y, hy, -⟩ := absorbAll_update hinv hr'
  have hsnoc := hy
  rw [updateData_succ s.din n hn] at hsnoc
  obtain ⟨x, hx, hpass⟩ := absorbAll_snoc_ok hsnoc
  obtain ⟨v, hv, hbyte⟩ := absorb_ok (withOutv_of_agree (absorb _) (absorb_agree _) absorb_frame false hpass)
  exact ⟨_, v, _, exec_update hr hx, hv, hbyte, exec_update hr' hy⟩

/-! The split of the input (R86). -/

/-- The bytes an UPDATE carries are its low lanes, and there are at most 64 of them (R34, R44). -/
theorem updateBytes_of_decode {c : Command} {len : BlockLen} (h : decode c.cmd = .cmd (.update len)) :
    updateBytes c = updateData c.din len ∧ len.toNat ≤ 64 := by
  obtain ⟨hwf, -⟩ := encode_of_decode h
  exact ⟨by rw [updateBytes, h], by simpa [Instr.wf, lenLegal] using hwf⟩

/-- The loop answers alike on the hash registers of `x` wherever they stand. -/
theorem absorbAll_withHashOf {bs : List Byte} {x y : State} (u : State) (h : absorbAll bs x = .ok y) :
    absorbAll bs (u.withHashOf x) = .ok (u.withHashOf y) := by
  rw [absorbAll_lift, h]

/-- Within the input limit one UPDATE absorbs its bytes and clears OUTV, whatever its other operands hold (R39, R85). -/
theorem runCommand_update {c : Command} {s : State} (hc : IsUpdate c) (hinv : HashInv s)
    (hroom : CHUNK_LEN * s.chunk.toNat + chunkLen s + (updateBytes c).length ≤ 2 ^ 74) :
    ∃ y, absorbAll (updateBytes c) s = .ok y ∧ HashInv y ∧
      runCommand c s = .next { (s.accept c).withHashOf y with outv := false } := by
  obtain ⟨len, hd⟩ := hc
  obtain ⟨hbytes, hlen⟩ := updateBytes_of_decode hd
  obtain ⟨y, hy, hyi⟩ := absorbAll_inv _ hinv hroom
  rw [hbytes, updateData_length, CHUNK_LEN] at hroom
  rw [hbytes] at hy ⊢
  have hr : updateRefusal len s = none := updateRefusal_none hlen (by omega)
  refine ⟨y, hy, hyi, ?_⟩
  rw [runCommand, hd]
  exact exec_update (s := s.accept c) hr (absorbAll_withHashOf (s.accept c) hy)

/-- Within the input limit a list of UPDATEs leaves what one loop over all their bytes leaves, but for OUTV, the sampled operands and
the position (R86). -/
theorem runCommands_updates {cs : List Command} {s : State} (hcs : ∀ c ∈ cs, IsUpdate c) (hinv : HashInv s)
    (hroom : CHUNK_LEN * s.chunk.toNat + chunkLen s + (cs.flatMap updateBytes).length ≤ 2 ^ 74) :
    ∃ t v, runCommands cs s = .next t ∧ absorbAll (cs.flatMap updateBytes) s = .ok v ∧
      t = { s.withHashOf v with outv := s.outv && cs.isEmpty, cmd := t.cmd, din := t.din, aux := t.aux, pos := t.pos } := by
  induction cs generalizing s with
  | nil => exact ⟨s, s, rfl, rfl, by simp [State.withHashOf]⟩
  | cons c cs ih =>
    rw [List.flatMap_cons, List.length_append] at hroom
    have hroom1 : CHUNK_LEN * s.chunk.toNat + chunkLen s + (updateBytes c).length ≤ 2 ^ 74 := by omega
    obtain ⟨y, hy, hyi, hrun⟩ := runCommand_update (hcs c (by simp)) hinv hroom1
    have hcount := absorbAll_count hinv hroom1 hy
    have hroom2 : CHUNK_LEN * y.chunk.toNat + chunkLen y + (cs.flatMap updateBytes).length ≤ 2 ^ 74 := by
      rw [CHUNK_LEN] at *; omega
    obtain ⟨w, hw, -⟩ := absorbAll_inv _ hyi hroom2
    obtain ⟨t, v, ht, hv, hform⟩ := ih (s := { (s.accept c).withHashOf y with outv := false }) (fun e he => hcs e (by simp [he]))
      ⟨hyi.blen_le, hyi.blk_zero, hyi.empty, hyi.sp_ones⟩ hroom2
    obtain rfl := Except.ok.inj ((absorbAll_withHashOf { (s.accept c).withHashOf y with outv := false } hw).symm.trans hv)
    refine ⟨t, w, by rw [runCommands, hrun]; exact ht, by rw [List.flatMap_cons, absorbAll_append, hy]; exact hw, ?_⟩
    rw [hform]
    simp [State.withHashOf, State.accept]

/-- Settles O52: both lists leave what the loop over the common bytes leaves. -/
theorem splitOfTheInputDoesNotMatter : Obligations.SplitOfTheInputDoesNotMatter := by
  refine ⟨fun s => exec_update_zero, fun cs es s hinv hcs hes heq hcs0 hes0 hroom => ?_⟩
  obtain ⟨t, v, ht, hv, hform⟩ := runCommands_updates hcs hinv hroom
  obtain ⟨u, w, hu, hw, hform'⟩ := runCommands_updates hes hinv (heq ▸ hroom)
  obtain rfl : v = w := Except.ok.inj (hv.symm.trans (heq ▸ hw))
  refine ⟨t, u, ht, hu, ?_⟩
  rw [hform', hform, List.isEmpty_eq_false_iff.mpr hcs0, List.isEmpty_eq_false_iff.mpr hes0]

end Sys2Proof.Machine
end

section
/-! PROOF. FINALIZE: the root node it latches (R87, R88), that it consumes nothing (R89), and the segments it leads to (R91, R92, R94). -/

namespace Sys2Proof.Machine

open Sys2Proof.Claims

/-! The root node (R87). -/

/-- Settles O33: the loop of RootNode is the fold of the valid entries. -/
theorem rootNodeFoldsTheStack : Obligations.RootNodeFoldsTheStack := rootNode_eq

/-- The root is the last block of the only chunk, which may be its first, or a parent (R67, R70, R76, R87). -/
theorem rootNode_flags {s : State} {n : Node} (hinv : HashInv s) (hn : rootNode s = .ok n) :
    n.fl ||| flagRoot = if s.sp = 0 then (if s.bcnt = 0 then 0x0B else 0x0A) else 0x0C := by
  cases (rootNode_eq s (sp_le_of_hashInv hinv)).symm.trans hn
  by_cases hsp : s.sp = 0
  · have hstart : startFlag s = if s.bcnt = 0 then 0x01 else 0x00 := rfl
    rw [if_pos hsp, hsp]
    show startFlag s ||| flagChunkEnd ||| flagRoot = _
    rw [hstart]
    split <;> rfl
  · have hpos : s.sp.toNat ≠ 0 := fun h => hsp (BitVec.eq_of_toNat_eq h)
    cases hstk : s.stk.toList.take s.sp.toNat with
    | nil => simp [List.take_eq_nil_iff, hpos] at hstk
    | cons l ls =>
      rw [if_neg hsp]
      show flagParent ||| flagRoot = 0x0C
      decide

/-- Settles O34: RootNode answers under the invariant, and FINALIZE latches what it answers. -/
theorem finalizeLatchesTheRoot : Obligations.FinalizeLatchesTheRoot := by
  refine ⟨fun s hinv => ?_, onlyLegalWord_encode (i := .finalize) rfl rfl⟩
  have hn := rootNode_eq s (sp_le_of_hashInv hinv)
  exact ⟨_, _, hn, exec_finalize hn, rfl, rfl, rfl, rfl, rfl, rfl, rfl, rootNode_flags hinv hn⟩

/-! FINALIZE consumes nothing (R89). -/

/-- A FINALIZE that answers latched what RootNode answered. -/
theorem exec_finalize_ok {s t : State} (h : exec .finalize s = .next t) : ∃ n, rootNode s = .ok n ∧ t = latchRoot s n := by
  cases effect_of_exec h with
  | refused hr => cases hr
  | finalize hn => exact ⟨_, hn, rfl⟩

theorem keepsStream_accept (s : State) (c : Command) : KeepsStream s (s.accept c) := keepsStream_of_eq rfl

/-- A command that neither resets nor absorbs leaves the hash registers alone, whether it executes or is refused. -/
theorem hashAgree_of_leavesStream {c : Command} {s t : State} (hc : leavesStream c.cmd = true) (h : runCommand c s = .next t) :
    HashAgree True s t := by
  have haccept := (keepsStream_accept s c).hash
  rw [runCommand] at h
  rw [leavesStream] at hc
  cases hd : decode c.cmd with
  | refuse e =>
    rw [hd] at h
    cases h
    exact haccept.trans (keepsStream_refuse (s.accept c) e).hash
  | cmd i =>
    rw [hd] at h hc
    refine haccept.trans ((effect_of_exec h).keeps_hash ?_ ?_)
    · rintro rfl; cases hc
    · rintro len rfl; cases hc

theorem hashAgree_of_leavesStream_list {cs : List Command} {s t : State} (hcs : ∀ c ∈ cs, leavesStream c.cmd = true)
    (h : runCommands cs s = .next t) : HashAgree True s t := by
  induction cs generalizing s with
  | nil => cases h; exact .refl True _
  | cons c cs ih =>
    rw [runCommands] at h
    cases hc : runCommand c s with
    | next u =>
      rw [hc] at h
      exact (hashAgree_of_leavesStream (hcs c (by simp)) hc).trans (ih (fun e he => hcs e (by simp [he])) h)
    | fault f => rw [hc] at h; cases h
    | refused r => rw [hc] at h; cases h

/-- Settles O35: the hash registers are the same before and after, and so is the root node that FINALIZE latches. -/
theorem finalizeIsNotConsuming : Obligations.FinalizeIsNotConsuming := by
  intro cs s t u v hcs hrun hu hv
  obtain ⟨n, hn, rfl⟩ := exec_finalize_ok hu
  obtain ⟨m, hm, rfl⟩ := exec_finalize_ok hv
  have hroot := rootNode_agree (hashAgree_of_leavesStream_list hcs hrun)
  obtain rfl : n = m := Except.ok.inj (hn.symm.trans (hroot.trans hm))
  exact ⟨rfl, rfl, rfl, rfl, rfl, rfl⟩

/-! The segments of the hash (R91, R92, R94). -/

/-- A latched root of the stream gives the segments of the reference hash. -/
theorem segmentWords_of_holdsRoot {data : List Byte} {s : State} (h : HoldsRoot s (refRoot data)) (k : Counter) :
    segmentWords s k = refSegment data k := by
  obtain ⟨hcv, hblk, hlen, hfl⟩ := h
  simp only [segmentWords, refSegment, hcv, hblk, hlen, hfl]

/-- SQUEEZE with the root of the stream latched gives the segment at OCTR (R91). -/
theorem exec_squeeze_of_holdsRoot {data : List Byte} {s : State} (ho : s.outv = true) (h : HoldsRoot s (refRoot data)) :
    ∃ t, exec .squeeze s = .next t ∧ t.dout = refSegment data s.octr :=
  ⟨_, exec_squeeze ho, segmentWords_of_holdsRoot h s.octr⟩

/-- FINALIZE latches the root of the stream (R87, R88). -/
theorem exec_finalize_of_absorbed {data : List Byte} {s : State} (h : Absorbed data s) :
    exec .finalize s = .next (latchRoot s (refRoot data)) := exec_finalize (rootNode_absorbed h)

/-- The word of a well-formed command runs that command (R49). -/
theorem runCommand_encode {i : Instr} (h : i.wf = true) (d : Bus) (a : Counter) (s : State) :
    runCommand ⟨encode i, d, a⟩ s = exec i (s.accept ⟨encode i, d, a⟩) := by
  rw [runCommand, decode_encode_of_wf h]; rfl

/-- SEEK to `k` and SQUEEZE as words give segment `k` of a latched root, whatever their unused operands hold (R91, R92). -/
theorem runCommands_seek_squeeze {data : List Byte} {s : State} (ho : s.outv = true) (h : HoldsRoot s (refRoot data)) (k a : Counter)
    (d d' : Bus) :
    ∃ t, runCommands [⟨encode .seek, d, k⟩, ⟨encode .squeeze, d', a⟩] s = .next t ∧ t.dout = refSegment data k := by
  have hseek : runCommand ⟨encode .seek, d, k⟩ s = .next { s.accept ⟨encode .seek, d, k⟩ with octr := k } := runCommand_encode rfl d k s
  obtain ⟨t, ht, hdout⟩ := exec_squeeze_of_holdsRoot
    (s := State.accept { s.accept ⟨encode .seek, d, k⟩ with octr := k } ⟨encode .squeeze, d', a⟩) ho
    ((keepsStream_of_eq rfl).holdsRoot h)
  refine ⟨t, ?_, hdout⟩
  simp only [runCommands, hseek, runCommand_encode (i := .squeeze) rfl, ht]

/-- Settles O51: FINALIZE latches the reference root, and SEEK and SQUEEZE read its segments. -/
theorem finalizeThenSqueezeGivesTheHash : Obligations.FinalizeThenSqueezeGivesTheHash := by
  intro data s k ha
  refine ⟨?_, fun d d' d'' a a'' => ?_⟩
  · have hroot := holdsRoot_latchRoot s (refRoot data)
    obtain ⟨u, hu, hdout⟩ := exec_squeeze_of_holdsRoot rfl hroot
    obtain ⟨w, hw, hdout'⟩ := exec_squeeze_of_holdsRoot (s := { latchRoot s (refRoot data) with aux := k, octr := k }) rfl
      ((keepsStream_of_eq rfl).holdsRoot hroot)
    exact ⟨_, u, _, w, exec_finalize_of_absorbed ha, hu, hdout, rfl, hw, hdout'⟩
  · have hfin := exec_finalize_of_absorbed ((keepsStream_accept s ⟨encode .finalize, d, a⟩).absorbed ha)
    rw [← runCommand_encode rfl] at hfin
    rw [runCommands, hfin]
    exact runCommands_seek_squeeze rfl (holdsRoot_latchRoot _ _) k a'' d' d''

end Sys2Proof.Machine
end

section
/-! PROOF. The output generator: what SQUEEZE and SEEK leave, and the segments that repeated SQUEEZEs read (R91 to R94). -/

namespace Sys2Proof.Machine

open Sys2Proof.Claims

/-! SQUEEZE (R91). -/

/-- `s` after a SQUEEZE at counter `k`: segment `k` in DOUT, and OCTR past it (R91). -/
def squeezedAt (s : State) (k : Counter) : State := { s with dout := segmentWords s k, octr := k + 1, dvalid := true }

theorem exec_squeeze_eq_squeezedAt {s : State} (h : s.outv = true) : exec .squeeze s = .next (squeezedAt s s.octr) := exec_squeeze h

/-- A SQUEEZE keeps the latched root and hides what the SQUEEZE before it wrote, so that only OCTR tells them apart. -/
theorem exec_squeeze_squeezedAt {s : State} (h : s.outv = true) (k : Counter) :
    exec .squeeze (squeezedAt s k) = .next (squeezedAt s (k + 1)) :=
  exec_squeeze_eq_squeezedAt (s := squeezedAt s k) h

theorem restoreOutput_squeezedAt (s : State) (k : Counter) : SameBut restoreOutput s (squeezedAt s k) := rfl

/-- Without a latched root the state refuses SQUEEZE (R91). -/
theorem stateRefusal_squeeze {s : State} (h : s.outv = false) : stateRefusal .squeeze s = some .noOutput := by
  simp [stateRefusal, h]

/-- Settles O36: the state after SQUEEZE, its refusal by the state, and its one word. -/
theorem squeezeProducesTheNextSegment : Obligations.SqueezeProducesTheNextSegment :=
  ⟨fun s ho => ⟨squeezedAt s s.octr, exec_squeeze_eq_squeezedAt ho, rfl, BitVec.toNat_add s.octr 1, rfl, restoreOutput_squeezedAt s s.octr⟩,
    fun _ ho => exec_of_stateRefusal (stateRefusal_squeeze ho), onlyLegalWord_encode (i := .squeeze) rfl rfl⟩

/-! Repeated SQUEEZEs (R93, R94). -/

/-- The last of `n + 1` SQUEEZEs is at the counter `n` past OCTR, which wraps modulo 2^64 (R93). -/
theorem squeezeTimes_succ {s : State} (ho : s.outv = true) (n : Nat) :
    squeezeTimes (n + 1) s = .next (squeezedAt s (s.octr + BitVec.ofNat 64 n)) := by
  induction n with
  | zero =>
    rw [BitVec.add_zero]
    exact exec_squeeze_eq_squeezedAt ho
  | succ n ih =>
    rw [squeezeTimes, ih, BitVec.ofNat_add, ← BitVec.add_assoc]
    exact exec_squeeze_squeezedAt ho _

/-- The `n`-th run of 64 bytes of the output stream is segment `n` (R94). -/
theorem segmentBytes_get (s : State) (n : Nat) {p : Nat} (hp : p < 64) :
    (segmentBytes s (BitVec.ofNat 64 n))[p]? = some (streamByte s (64 * n + p)) := by
  have hlen : p < (segmentBytes s (BitVec.ofNat 64 n)).length := by rw [segmentBytes, bytesOf_length]; exact hp
  have hdiv : (64 * n + p) / 64 = n := by omega
  have hmod : (64 * n + p) % 64 = p := by omega
  rw [streamByte, hdiv, hmod, List.getD_eq_getElem _ _ hlen, List.getElem?_eq_getElem hlen]

/-- Settles O37: from OCTR = 0 the counter of the last SQUEEZE is the number of the segment in the stream. -/
theorem squeezesReadTheOutputStream : Obligations.SqueezesReadTheOutputStream := by
  intro n s ho
  refine ⟨_, squeezeTimes_succ ho n, rfl, ?_, rfl, restoreOutput_squeezedAt s _, fun p hp hoctr _ => ?_⟩
  · rw [BitVec.ofNat_add, ← BitVec.add_assoc]
    rfl
  · rw [hoctr, zero_add]
    exact segmentBytes_get s n hp

/-! SEEK (R92). -/

/-- A SQUEEZE right after SEEK is at the counter that SEEK took from `aux` (R91, R92). -/
theorem exec_squeeze_after_seek {s : State} (ho : s.outv = true) :
    exec .squeeze { s with octr := s.aux } = .next (squeezedAt s s.aux) :=
  exec_squeeze_eq_squeezedAt (s := { s with octr := s.aux }) ho

/-- Settles O38: SEEK to `k` gives the counter that the last of `k + 1` SQUEEZEs from 0 is at. -/
theorem seekSetsTheOutputCounter : Obligations.SeekSetsTheOutputCounter := by
  refine ⟨fun _ => rfl, onlyLegalWord_encode (i := .seek) rfl rfl, fun s t h => ?_, fun k s t u v ho hoctr haux ht hu hv => ?_⟩
  · obtain ⟨n, -, rfl⟩ := exec_finalize_ok h
    rfl
  · rw [squeezeTimes_succ ho, hoctr, zero_add, ← haux] at ht
    cases ht
    cases hu
    exact Host.Outcome.next.inj (hv.symm.trans (exec_squeeze_after_seek ho))

end Sys2Proof.Machine
end

section
/-! PROOF. Hex text: the codes of its digits, and that the reader gives the bytes back (R50, R96). -/

namespace Sys2Proof.Machine

open Sys2Proof.Claims

/-! One digit. -/

/-- The digits `0` to `9` and `a` to `f` by their codes, which are below the surrogates and so characters. -/
theorem nibbleChar_toNat {n : Nat} (h : n < 16) : (nibbleChar n).toNat = if n < 10 then 48 + n else 87 + n := by
  unfold nibbleChar
  split <;> rw [Char.toNat_ofNat, if_pos (.inl (by omega))]

theorem nibbleChar_lowercase {n : Nat} (h : n < 16) :
    (48 ≤ (nibbleChar n).toNat ∧ (nibbleChar n).toNat ≤ 57) ∨ (97 ≤ (nibbleChar n).toNat ∧ (nibbleChar n).toNat ≤ 102) := by
  rw [nibbleChar_toNat h]
  split <;> omega

theorem hexDigit_nibbleChar {n : Nat} (h : n < 16) : hexDigit (nibbleChar n) = some n := by
  simp only [hexDigit, nibbleChar_toNat h]
  by_cases h10 : n < 10
  · rw [if_pos h10, if_pos (by omega), Nat.add_sub_cancel_left]
  · rw [if_neg h10, if_neg (by omega), if_pos (by omega), Nat.add_sub_cancel_left]

/-! The text of a byte string. -/

theorem hexText_cons (b : Byte) (bs : List Byte) :
    hexText (b :: bs) = nibbleChar (b.toNat / 16) :: nibbleChar (b.toNat % 16) :: hexText bs := rfl

/-- The two nibbles of a byte. -/
theorem nibbles_lt (b : Byte) : b.toNat / 16 < 16 ∧ b.toNat % 16 < 16 := by
  have := b.isLt
  omega

/-- The reader takes the two digits of a byte together, the high nibble first. -/
theorem readHexBytes_hexText (bs : List Byte) : readHexBytes (hexText bs) = some bs := by
  induction bs with
  | nil => rfl
  | cons b bs ih =>
    obtain ⟨hhigh, hlow⟩ := nibbles_lt b
    rw [hexText_cons, readHexBytes, hexDigit_nibbleChar hhigh, hexDigit_nibbleChar hlow, ih]
    simp only [Nat.div_add_mod, BitVec.ofNat_toNat, BitVec.setWidth_eq]

theorem hexText_length (bs : List Byte) : (hexText bs).length = 2 * bs.length := by
  simp [hexText, Nat.mul_comm]

theorem hexText_lowercase {bs : List Byte} {c : Char} (h : c ∈ hexText bs) :
    (48 ≤ c.toNat ∧ c.toNat ≤ 57) ∨ (97 ≤ c.toNat ∧ c.toNat ≤ 102) := by
  obtain ⟨b, -, hc⟩ := List.mem_flatMap.mp h
  obtain ⟨hhigh, hlow⟩ := nibbles_lt b
  obtain rfl | rfl : c = nibbleChar (b.toNat / 16) ∨ c = nibbleChar (b.toNat % 16) := by simpa using hc
  · exact nibbleChar_lowercase hhigh
  · exact nibbleChar_lowercase hlow

/-- Settles O10: each byte is two lowercase digits, which the reader puts together again. -/
theorem hexTextReadsBack : Obligations.HexTextReadsBack := fun bs =>
  ⟨readHexBytes_hexText bs, hexText_length bs, fun h => by rw [hexText_length, h], fun _ => hexText_lowercase⟩

end Sys2Proof.Machine
end

section
/-! PROOF. Exceptions: why a command is refused and what its refusal records (R98 to R101, R104), that the error record blocks nothing
(R102), and the loss of power (R110). -/

namespace Sys2Proof.Machine

open Sys2Proof.Claims

/-! Recording a refusal (R99, R100). -/

/-- Settles O20: the first refusal writes its code, a later one nothing, and neither writes another register. -/
theorem refusalRecordsTheFirstCode : Obligations.RefusalRecordsTheFirstCode := by
  refine ⟨⟨rfl, rfl, rfl, rfl, rfl⟩, fun s e h => ?_, fun s e => s.refuse_again e, fun s e => ?_⟩
  · rw [s.refuse_first e h]; exact ⟨rfl, rfl⟩
  · rw [SameBut, refuse_form s e]; rfl

/-! The causes of a refusal (R99, R101). -/

theorem refusalOf_of_refuse {w : Word} {e : ErrCode} (h : decode w = .refuse e) (s : State) : refusalOf w s = some e := by
  rw [refusalOf, h]

theorem refusalOf_of_cmd {w : Word} {i : Instr} (h : decode w = .cmd i) (s : State) : refusalOf w s = stateRefusal i s := by
  rw [refusalOf, h]

/-- A cause is the decoder's, or the state's for a word that decodes. -/
theorem refusalOf_eq_some_iff {w : Word} {s : State} {e : ErrCode} : refusalOf w s = some e ↔
    decode w = .refuse e ∨ ∃ i, decode w = .cmd i ∧ stateRefusal i s = some e := by
  cases hd : decode w with
  | cmd i => simp [refusalOf_of_cmd hd]
  | refuse e' => simp [refusalOf_of_refuse hd]

/-- A word that is not refused decodes to a command that the state does not refuse. -/
theorem refusalOf_eq_none {w : Word} {s : State} (h : refusalOf w s = none) :
    ∃ i, decode w = .cmd i ∧ stateRefusal i s = none := by
  cases hd : decode w with
  | cmd i => exact ⟨i, rfl, (refusalOf_of_cmd hd s).symm.trans h⟩
  | refuse e => cases (refusalOf_of_refuse hd s).symm.trans h

theorem decodeFields_ne_illegalOp (op : Opcode) (w : Word) : decodeFields op w ≠ .refuse .illegalOp := by
  unfold decodeFields
  split_ifs <;> nofun

/-- ILLEGAL_OP is the cause of a reserved opcode value and of nothing else (R47). -/
theorem decode_eq_illegalOp_iff (w : Word) : decode w = .refuse .illegalOp ↔ 9 ≤ (opField w).toNat := by
  refine ⟨fun h => ?_, decode_illegalOp⟩
  by_contra hop
  obtain ⟨op, ho, -⟩ := opcodeOf_of_le w (by omega)
  rw [decode, ho] at h
  exact decodeFields_ne_illegalOp op w h

/-- The state refuses a well-formed command for two causes: SQUEEZE without a root, and UPDATE for the counter overflow (R85, R91). -/
theorem stateRefusal_of_wf {i : Instr} {s : State} {e : ErrCode} (hwf : i.wf = true) (h : stateRefusal i s = some e) :
    (e = .noOutput ∧ i = .squeeze ∧ s.outv = false) ∨ (e = .ctrOvf ∧ ∃ len, i = .update len ∧ ctrOverflow len s = true) := by
  cases i with
  | nop | reset | finalize | seek | loadcv | clrerr => cases h
  | squeeze =>
    cases ho : s.outv with
    | true => simp [stateRefusal, ho] at h
    | false => cases (stateRefusal_squeeze ho).symm.trans h; exact .inl ⟨rfl, rfl, rfl⟩
  | update len =>
    rcases updateRefusal_some h with ⟨-, hlen⟩ | ⟨he, -, hovf⟩
    · cases hlen.symm.trans hwf
    · exact .inr ⟨he, len, rfl, hovf⟩
  | compress len flg =>
    have hlen : lenLegal len = true := hwf
    simp [stateRefusal, hlen] at h

/-- The causes of a refusal: the decoder's, which come first, and the state's two (R101). -/
theorem refusalOf_cases {w : Word} {s : State} {e : ErrCode} (h : refusalOf w s = some e) :
    (decode w = .refuse e ∧ e ≠ .noOutput ∧ e ≠ .ctrOvf) ∨
    (e = .noOutput ∧ decode w = .cmd .squeeze ∧ s.outv = false) ∨
    (e = .ctrOvf ∧ ∃ len, decode w = .cmd (.update len) ∧ ctrOverflow len s = true) := by
  rcases refusalOf_eq_some_iff.mp h with hd | ⟨i, hd, hr⟩
  · obtain ⟨hno, hovf⟩ := decode_ne w
    exact .inl ⟨hd, fun he => hno (he ▸ hd), fun he => hovf (he ▸ hd)⟩
  · obtain ⟨hwf, -⟩ := encode_of_decode hd
    rcases stateRefusal_of_wf hwf hr with ⟨he, rfl, ho⟩ | ⟨he, len, rfl, hovf⟩
    · exact .inr (.inl ⟨he, hd, ho⟩)
    · exact .inr (.inr ⟨he, len, hd, hovf⟩)

theorem refusalOf_eq_illegalOp_iff (w : Word) (s : State) : refusalOf w s = some .illegalOp ↔ 9 ≤ (opField w).toNat := by
  rw [← decode_eq_illegalOp_iff]
  refine ⟨fun h => ?_, fun h => refusalOf_of_refuse h s⟩
  rcases refusalOf_cases h with ⟨hd, -⟩ | ⟨he, -⟩ | ⟨he, -⟩
  · exact hd
  · cases he
  · cases he

theorem refusalOf_eq_noOutput_iff (w : Word) (s : State) : refusalOf w s = some .noOutput ↔ w = 0x4 ∧ s.outv = false := by
  have hw : decode w = .cmd .squeeze ↔ w = 0x4 := decode_eq_cmd_iff rfl
  rw [← hw]
  constructor
  · intro h
    rcases refusalOf_cases h with ⟨-, hne, -⟩ | ⟨-, hd⟩ | ⟨he, -⟩
    · exact absurd rfl hne
    · exact hd
    · cases he
  · rintro ⟨hd, ho⟩
    exact (refusalOf_of_cmd hd s).trans (stateRefusal_squeeze ho)

/-- CTR_OVF is the cause of an UPDATE at the last chunk index with more bytes than the chunk has room for (R85). -/
theorem refusalOf_ctrOvf {w : Word} {s : State} (h : refusalOf w s = some .ctrOvf) :
    (∃ len, decode w = .cmd (.update len) ∧ 1024 < chunkLen s + len.toNat) ∧ s.chunk.toNat = 2 ^ 64 - 1 := by
  rcases refusalOf_cases h with ⟨-, -, hne⟩ | ⟨he, -⟩ | ⟨-, len, hd, hovf⟩
  · exact absurd rfl hne
  · cases he
  · obtain ⟨hchunk, hlen⟩ := (ctrOverflow_iff len s).mp hovf
    exact ⟨⟨len, hd, hlen⟩, hchunk⟩

/-- A refused command samples its operands and records its cause (R98). -/
theorem runCommand_of_refusalOf {c : Command} {s : State} {e : ErrCode} (h : refusalOf c.cmd s = some e) :
    runCommand c s = .next ((s.accept c).refuse e) := by
  rcases refusalOf_eq_some_iff.mp h with hd | ⟨i, hd, hr⟩
  · exact runCommand_refuse hd
  · rw [runCommand, hd]
    exact exec_of_stateRefusal ((stateRefusal_accept i s c).trans hr)

/-- Settles O21: the refusal's effect, and the causes ILLEGAL_OP, NO_OUTPUT and CTR_OVF one by one. -/
theorem refusedCommandOnlyRecordsItsCode : Obligations.RefusedCommandOnlyRecordsItsCode := by
  intro c s e h
  have hcause : ∀ e', e = e' ↔ refusalOf c.cmd s = some e' := fun e' => by rw [h, Option.some_inj]
  exact ⟨runCommand_of_refusalOf h, (hcause _).trans (refusalOf_eq_illegalOp_iff c.cmd s),
    (hcause _).trans (refusalOf_eq_noOutput_iff c.cmd s), fun he => refusalOf_ctrOvf ((hcause _).mp he)⟩

/-- Settles O22: the word decodes to a command other than RESET and CLRERR that the state does not refuse. -/
theorem executedCommandRecordsNothing : Obligations.ExecutedCommandRecordsNothing := by
  intro c s t h h1 h8 hrun
  obtain ⟨i, hd, hr⟩ := refusalOf_eq_none h
  rw [runCommand, hd] at hrun
  refine exec_err (s := s.accept c) hrun ((stateRefusal_accept i s c).trans hr) ?_ ?_ <;> rintro rfl
  · exact h1 ((decode_eq_cmd_iff rfl).mp hd)
  · exact h8 ((decode_eq_cmd_iff rfl).mp hd)

theorem ctrOverflow_congr {s t : State} {len : BlockLen} (hchunk : s.chunk = t.chunk) (hlen : chunkLen s = chunkLen t) :
    ctrOverflow len s = ctrOverflow len t := by
  rw [Bool.eq_iff_iff, ctrOverflow_iff, ctrOverflow_iff, hchunk, hlen]

theorem stateRefusal_congr {s t : State} (houtv : s.outv = t.outv) (hchunk : s.chunk = t.chunk) (hlen : chunkLen s = chunkLen t)
    (i : Instr) : stateRefusal i s = stateRefusal i t := by
  cases i with
  | nop | reset | finalize | seek | loadcv | compress | clrerr => rfl
  | squeeze => simp only [stateRefusal, houtv]
  | update len => simp only [stateRefusal, updateRefusal, ctrOverflow_congr hchunk hlen]

/-- Settles O24: the decoder reads the word alone, and the state's checks read OUTV, CHUNK and chunk_len. -/
theorem refusalDependsOnControlAlone : Obligations.RefusalDependsOnControlAlone := by
  intro w s t houtv hchunk hlen
  cases hd : decode w with
  | cmd i => rw [refusalOf_of_cmd hd, refusalOf_of_cmd hd, stateRefusal_congr houtv hchunk hlen i]
  | refuse e => rw [refusalOf_of_refuse hd, refusalOf_of_refuse hd]

/-! The error record blocks nothing (R102). -/

/-- `s` with another error record. -/
def State.withError (s : State) (e : Bool) (k : BitVec 3) : State := { s with err := e, errcode := k }

theorem restoreError_withError (s : State) (e : Bool) (k : BitVec 3) : SameBut restoreError s (s.withError e k) := rfl

theorem hashAgree_withError (s : State) (e : Bool) (k : BitVec 3) : HashAgree True (s.withError e k) s :=
  ⟨rfl, rfl, rfl, rfl, rfl, rfl, fun _ _ _ => rfl⟩

theorem stateRefusal_withError (i : Instr) (s : State) (e : Bool) (k : BitVec 3) :
    stateRefusal i (s.withError e k) = stateRefusal i s := stateRefusal_congr rfl rfl rfl i

/-- Two refusals of one command differ in the error record alone. -/
theorem withError_refuse (s : State) (e : Bool) (k : BitVec 3) (c : ErrCode) :
    ∃ e' k', (s.withError e k).refuse c = (s.refuse c).withError e' k' := by
  refine ⟨((s.withError e k).refuse c).err, ((s.withError e k).refuse c).errcode, ?_⟩
  rw [refuse_form s c]
  exact refuse_form (s.withError e k) c

/-- UPDATE's loop neither reads nor writes the error record. -/
theorem absorbAll_withError_ok {bs : List Byte} {s u : State} (h : absorbAll bs s = .ok u) (e : Bool) (k : BitVec 3) :
    absorbAll bs (s.withError e k) = .ok (u.withError e k) := by
  have hu := absorbAll_withHashOf (s.withError e k) h
  rw [absorbAll_frame h]
  exact hu

theorem absorbAll_withError_error {bs : List Byte} {s : State} {f : Fault} (h : absorbAll bs s = .error f) (e : Bool) (k : BitVec 3) :
    absorbAll bs (s.withError e k) = .error f := by
  have hlift := absorbAll_lift bs (s.withError e k) s
  rw [h] at hlift
  exact hlift

theorem rootNode_withError (s : State) (e : Bool) (k : BitVec 3) : rootNode (s.withError e k) = rootNode s :=
  rootNode_agree (hashAgree_withError s e k)

/-- A command that answers does so whatever the error record holds, and leaves the same everywhere else. -/
theorem Effect.exec_withError {s t : State} {i : Instr} (h : Effect s i t) (e : Bool) (k : BitVec 3) :
    ∃ e' k', exec i (s.withError e k) = .next (t.withError e' k') := by
  cases h with
  | @refused _ c hr =>
    obtain ⟨e', k', hrec⟩ := withError_refuse s e k c
    exact ⟨e', k', hrec ▸ exec_of_stateRefusal ((stateRefusal_withError i s e k).trans hr)⟩
  | nop | seek | loadcv => exact ⟨e, k, rfl⟩
  | reset | clrerr => exact ⟨false, 0, rfl⟩
  | @update len u hr hu =>
    exact ⟨e, k, exec_update ((stateRefusal_withError (.update len) s e k).trans hr) (absorbAll_withError_ok hu e k)⟩
  | finalize hn => exact ⟨e, k, exec_finalize ((rootNode_withError s e k).trans hn)⟩
  | squeeze ho => exact ⟨e, k, exec_squeeze (s := s.withError e k) ho⟩
  | compress hl => exact ⟨e, k, exec_compress _ (s.withError e k) hl⟩

theorem exec_update_error {len : BlockLen} {s : State} {f : Fault} (hr : updateRefusal len s = none)
    (h : absorbAll (updateData s.din len) s = .error f) : exec (.update len) s = .fault f := by
  simp only [exec, execUpdate, hr, h]

theorem exec_finalize_error {s : State} {f : Fault} (h : rootNode s = .error f) : exec .finalize s = .fault f := by
  simp only [exec, execFinalize, h]

/-- Only UPDATE's loop and RootNode can stop with a fault. -/
theorem exec_fault_cases {i : Instr} {s : State} {f : Fault} (h : exec i s = .fault f) :
    (∃ len, i = .update len ∧ updateRefusal len s = none ∧ absorbAll (updateData s.din len) s = .error f) ∨
    (i = .finalize ∧ rootNode s = .error f) := by
  cases hr : stateRefusal i s with
  | some e => cases (exec_of_stateRefusal hr).symm.trans h
  | none =>
    cases i with
    | nop | reset | seek | loadcv | clrerr => cases h
    | squeeze => cases (exec_squeeze (outv_of_squeeze hr)).symm.trans h
    | compress len flg => cases (exec_compress flg s (len_le_of_compress hr)).symm.trans h
    | update len =>
      have hr : updateRefusal len s = none := hr
      cases ha : absorbAll (updateData s.din len) s with
      | ok u => cases (exec_update hr ha).symm.trans h
      | error g => cases (exec_update_error hr ha).symm.trans h; exact .inl ⟨len, rfl, hr, ha⟩
    | finalize =>
      cases hn : rootNode s with
      | ok n => cases (exec_finalize hn).symm.trans h
      | error g => cases (exec_finalize_error hn).symm.trans h; exact .inr ⟨rfl, rfl⟩

theorem exec_fault_withError {i : Instr} {s : State} {f : Fault} (h : exec i s = .fault f) (e : Bool) (k : BitVec 3) :
    exec i (s.withError e k) = .fault f := by
  rcases exec_fault_cases h with ⟨len, rfl, hr, ha⟩ | ⟨rfl, hn⟩
  · exact exec_update_error ((stateRefusal_withError (.update len) s e k).trans hr) (absorbAll_withError_error ha e k)
  · exact exec_finalize_error ((rootNode_withError s e k).trans hn)

/-- An accepted command that answers does so whatever the error record holds, and leaves the same everywhere else. -/
theorem runCommand_next_withError {c : Command} {s t : State} (h : runCommand c s = .next t) (e : Bool) (k : BitVec 3) :
    ∃ e' k', runCommand c (s.withError e k) = .next (t.withError e' k') := by
  cases hd : decode c.cmd with
  | cmd i =>
    rw [runCommand, hd] at h ⊢
    exact (effect_of_exec h).exec_withError e k
  | refuse code =>
    cases (runCommand_refuse hd).symm.trans h
    obtain ⟨e', k', hrec⟩ := withError_refuse (s.accept c) e k code
    exact ⟨e', k', hrec ▸ runCommand_refuse hd⟩

theorem runCommand_fault_withError {c : Command} {s : State} {f : Fault} (h : runCommand c s = .fault f) (e : Bool) (k : BitVec 3) :
    runCommand c (s.withError e k) = .fault f := by
  cases hd : decode c.cmd with
  | cmd i =>
    rw [runCommand, hd] at h ⊢
    exact exec_fault_withError h e k
  | refuse code => cases (runCommand_refuse hd).symm.trans h

/-- Settles O23: with another error record the command answers the same but for the record, or stops with the same fault. -/
theorem errorRecordBlocksNothing : Obligations.ErrorRecordBlocksNothing := by
  intro c s e k
  refine ⟨fun t h => ?_, fun f h => runCommand_fault_withError h e k⟩
  obtain ⟨e', k', h'⟩ := runCommand_next_withError h e k
  exact ⟨t.withError e' k', h', restoreError_withError t e' k'⟩

/-! Loss of power (R110). -/

/-- Settles O60: without a reset an edge leaves the core unpowered, and an edge with one loads the reset values. -/
theorem onlyResetRestoresALostCore : Obligations.OnlyResetRestoresALostCore := fun k p =>
  ⟨rfl, rfl, acceptedAt_of_not_ready rfl p, edge_unpowered,
    fun h => ⟨k.state.loadReset, edge_reset (losePower k) p h, loadReset_status k.state, loadReset_obs k.state⟩⟩

end Sys2Proof.Machine
end

section
/-! PROOF. Hardware reset and timing: what an edge under reset leaves, how long an accepted command takes and what its latency depends on
(R111, R113 to R116, R119, R120). -/

namespace Sys2Proof.Machine

open Sys2Proof.Claims

/-! Hardware reset (R111, R120). -/

theorem acceptedAt_of_reset {p : Pins} (h : p.rstN = false) (k : Clocked) : acceptedAt k p = none := by
  simp [acceptedAt, h]

/-- Settles O54: whatever the clock state, the edge leaves `loadReset` of what the last completed command left. -/
theorem resetEdgeLoadsTheResetValues : Obligations.ResetEdgeLoadsTheResetValues := fun k p h =>
  ⟨k.state.loadReset, edge_reset k p h, acceptedAt_of_reset h k, rfl, loadReset_obs k.state, fun _ hq => ⟨edge_inReset hq, rfl⟩⟩

/-! An accepted command from its edge to its completion (R114, R115). -/

theorem edges_cons {k k' : Clocked} {p : Pins} (h : edge k p = .next k') (ps : List Pins) : edges (p :: ps) k = edges ps k' := by
  rw [edges, h]

theorem startCommand_of_zero {c : Command} {s : State} (h : latencyExtra c.cmd s = 0) : startCommand c s = complete c s := by
  rw [startCommand, h]

theorem startCommand_of_succ {c : Command} {s : State} {left : Nat} (h : latencyExtra c.cmd s = left + 1) :
    startCommand c s = .next (.busy s c left) := by
  rw [startCommand, h]

/-- An idle core starts the command it is offered (R114). -/
theorem edge_idle_offer {s : State} {p : Pins} (hp : p.rstN = true) (hv : p.cmdValid = true) :
    edge (.idle s) p = startCommand p.command s := by
  rw [edge_idle hp, hv, if_pos rfl]

/-- Settles O55: a latency of 1 completes at the accepting edge; a longer one makes the core busy and counts down. -/
theorem acceptedCommandCompletesAfterItsLatency : Obligations.AcceptedCommandCompletesAfterItsLatency := by
  intro s t p ps hp hv hps hrun
  rw [latency]
  cases hl : latencyExtra p.cmd s with
  | zero =>
    have hedge : edge (.idle s) p = .next (.idle t) :=
      (edge_idle_offer hp hv).trans ((startCommand_of_zero hl).trans (complete_of_next hrun))
    refine ⟨fun hlen => ?_, fun hlen => absurd hlen (by omega)⟩
    obtain rfl : ps = [] := List.length_eq_zero_iff.mp (by omega)
    exact edges_cons hedge []
  | succ left =>
    have hedge : edge (.idle s) p = .next (.busy s p.command left) := (edge_idle_offer hp hv).trans (startCommand_of_succ hl)
    rw [edges_cons hedge]
    refine ⟨fun hlen => (edges_busy ps s p.command left hps).2 t (by omega) hrun, fun hlen => ⟨left - ps.length, ?_⟩⟩
    exact (edges_busy ps s p.command left hps).1 _ (by omega)

/-- From a state that meets the invariant every command answers, executed or refused (R98). -/
theorem runCommand_completes {s : State} (hs : HashInv s) (c : Command) : ∃ t, runCommand c s = .next t := by
  cases hd : decode c.cmd with
  | refuse e => exact ⟨_, runCommand_refuse hd⟩
  | cmd i =>
    rw [runCommand, hd]
    exact exec_completes ((keepsStream_accept s c).hashInv hs) i

/-- Settles O59: the executing command completes after `left + 1` edges, and the idle core accepts the offer. -/
theorem keptOfferIsAccepted : Obligations.KeptOfferIsAccepted := by
  intro s c left p hs hp hv
  obtain ⟨t, hrun⟩ := runCommand_completes hs c
  have hreps : ∀ q ∈ List.replicate (left + 1) p, q.rstN = true := fun q hq => (List.eq_of_mem_replicate hq).symm ▸ hp
  refine ⟨t, (edges_busy _ s c left hreps).2 t (by rw [List.length_replicate]) hrun, ?_⟩
  rw [acceptedAt_idle hp, hv, if_pos rfl]

/-! What a latency depends on (R119). -/

theorem latencyExtra_refused {w : Word} {s : State} {e : ErrCode} (h : refusalOf w s = some e) :
    latencyExtra w s = Config.extraRefused (opField w) (latencyKey w s) := by
  rw [latencyExtra, h]

theorem latencyExtra_executed {w : Word} {s : State} {op : Opcode} (h : refusalOf w s = none) (hop : opcodeOf (opField w) = some op) :
    latencyExtra w s = extraCycles op (latencyKey w s) := by
  rw [latencyExtra, h, hop]

/-- A word that is not refused has a legal opcode (R47). -/
theorem opcode_of_refusalOf_none {w : Word} {s : State} (h : refusalOf w s = none) : ∃ op, opcodeOf (opField w) = some op := by
  cases hop : opcodeOf (opField w) with
  | some op => exact ⟨op, rfl⟩
  | none => cases ((refusalOf_eq_illegalOp_iff w s).mpr ((opcodeOf_eq_none _).mp hop)).symm.trans h

theorem latencyKey_congr {w w' : Word} {s t : State} (hlen : lenField w = lenField w') (hblen : s.blen = t.blen) (hbcnt : s.bcnt = t.bcnt)
    (hchunk : s.chunk = t.chunk) (hsp : s.sp = t.sp) : latencyKey w s = latencyKey w' t := by
  simp only [latencyKey, hlen, hblen, hbcnt, hchunk, hsp]

/-- Two words with one opcode and one key, both refused or both executed, take the same cycles (R119). -/
theorem latencyExtra_congr {w w' : Word} {s t : State} (hop : opField w = opField w') (hkey : latencyKey w s = latencyKey w' t)
    (href : (refusalOf w s).isSome = (refusalOf w' t).isSome) : latencyExtra w s = latencyExtra w' t := by
  cases hr : refusalOf w s with
  | some e =>
    obtain ⟨e', hr'⟩ : ∃ e', refusalOf w' t = some e' := Option.isSome_iff_exists.mp (by rw [← href, hr]; rfl)
    rw [latencyExtra_refused hr, latencyExtra_refused hr', hop, hkey]
  | none =>
    have hr' : refusalOf w' t = none := by simpa [hr] using href.symm
    obtain ⟨op, ho⟩ := opcode_of_refusalOf_none hr
    rw [latencyExtra_executed hr ho, latencyExtra_executed hr' (hop ▸ ho), hkey]

/-- Two executed words with one opcode of constant time take the same time, whatever their keys (R119). -/
theorem latency_eq_of_constant {w w' : Word} {s t : State} {op : Opcode} (hconst : ∀ k k', extraCycles op k = extraCycles op k')
    (hw : opField w = op.bits) (hop : opField w = opField w') (hr : refusalOf w s = none) (hr' : refusalOf w' t = none) :
    latency w s = latency w' t := by
  have ho := (opcodeOf_eq_some _ op).mpr hw
  rw [latency, latency, latencyExtra_executed hr ho, latencyExtra_executed hr' (hop ▸ ho), hconst]

/-- Settles O57: a latency is one more than its extra cycles, which read the opcode, the key and whether the word is refused. -/
theorem latencyDependsOnNoData : Obligations.LatencyDependsOnNoData := by
  refine ⟨fun w s => Nat.succ_pos _, ?_, ?_⟩
  · intro w w' s t hop hlen hblen hbcnt hchunk hsp href
    exact congrArg (· + 1) (latencyExtra_congr hop (latencyKey_congr hlen hblen hbcnt hchunk hsp) href)
  · intro w w' s t hop hconst hr hr'
    rcases hconst with hsqueeze | hcompress
    · exact latency_eq_of_constant (op := .squeeze) (fun _ _ => rfl) hsqueeze hop hr hr'
    · exact latency_eq_of_constant (op := .compress) (fun _ _ => rfl) hcompress hop hr hr'

end Sys2Proof.Machine
end
